-- ==== Sys2Proof/Word.lean ====
section
/-! DEFINITION. The machine word of DCORE and its register field (00_scope.md R7, R8; 30_encoding.md R61). -/

namespace Sys2Proof

/-- A 32-bit machine word, bit 0 least significant (R7 `WORD`, R8). -/
abbrev Word := BitVec 32

/-- A register field of a command word: a 4-bit unsigned index, of which only 0..7 name a register (R61). -/
abbrev RegField := BitVec 4

end Sys2Proof
end

