-- ==== Sys2Proof/Config.lean ====
section
/-! DEFINITION. The parameters of DCORE: those R7 fixes, as numbers; those it leaves OPEN, as constants without a body. -/

namespace Sys2Proof

/-- `MAXM = 2^96 - 1`, the largest mantissa (R12; R7 `MANT_BITS` = 96). -/
abbrev Config.maxMant : Nat := 2 ^ 96 - 1

/-- `SCALE_MAX`, the largest scale (R7). -/
abbrev Config.scaleMax : Nat := 28

/-- `DIV_REM_BITS`, the width of the division remainder register (R7, D26). -/
abbrev Config.divRemBits : Nat := 97

/-- `F2D_DIGITS`, the significant digits F2D keeps (R7). -/
abbrev Config.f2dDigits : Nat := 7

/-- `WINDOW_BYTES`, the size of the register window (R7, R40). -/
abbrev Config.windowBytes : Nat := 256

/-- `DCORE_BASE`, the host address of the window: OPEN (R7, R40, D6). Assumption 1. -/
opaque Config.dcoreBase : Nat

/-- `CMD_LATENCY`: how many host turns pass between the acceptance and the completion of the n-th accepted
command. OPEN: finite, free for each command (R7, R72, R258, D16). Assumption 2. -/
opaque Config.cmdLatency : Nat → Nat

end Sys2Proof
end

