-- ==== Sys2Proof/Syntax.lean ====
section
/-! DEFINITION. The commands of DCORE, one constructor per row of spec/opcode_table.json (R62, R64). Operands
stand in assembler order, destination first (R68). -/

namespace Sys2Proof

/-- The eighteen commands (R64). A register operand is the command word's 4-bit field (R61). -/
inductive Instr where
  /-- `DADD Dd, Da, Db` (R130). -/
  | dadd (rd ra rb : RegField)
  /-- `DSUB Dd, Da, Db` (R131). -/
  | dsub (rd ra rb : RegField)
  /-- `DMUL Dd, Da, Db` (R132). -/
  | dmul (rd ra rb : RegField)
  /-- `DDIV Dd, Da, Db` (R133). -/
  | ddiv (rd ra rb : RegField)
  /-- `DLT Da, Db` (R151). -/
  | dlt (ra rb : RegField)
  /-- `DLE Da, Db` (R152). -/
  | dle (ra rb : RegField)
  /-- `DGT Da, Db` (R153). -/
  | dgt (ra rb : RegField)
  /-- `DGE Da, Db` (R154). -/
  | dge (ra rb : RegField)
  /-- `DEQ Da, Db` (R156). -/
  | deq (ra rb : RegField)
  /-- `DNE Da, Db` (R157). -/
  | dne (ra rb : RegField)
  /-- `DTRUNC Dd, Da` (R171). -/
  | dtrunc (rd ra : RegField)
  /-- `DROUND Dd, Da` (R172). -/
  | dround (rd ra : RegField)
  /-- `DFLOOR Dd, Da` (R173). -/
  | dfloor (rd ra : RegField)
  /-- `DNEG Dd, Da` (R174). -/
  | dneg (rd ra : RegField)
  /-- `I2D Dd, Sa` (R190). -/
  | i2d (rd ra : RegField)
  /-- `F2D Dd, Sa` (R193). -/
  | f2d (rd ra : RegField)
  /-- `D2I Sd, Da` (R191). -/
  | d2i (rd ra : RegField)
  /-- `D2F Sd, Da` (R196). -/
  | d2f (rd ra : RegField)
  deriving DecidableEq, Repr

end Sys2Proof
end

