-- ==== Sys2Proof/WellFormed.lean ====
section
/-! DEFINITION. Which commands are well formed: every register field they use names a register (R61, R65). A
command has no field it does not use, so R65's "unused fields are 0" is a matter of decoding. -/

namespace Sys2Proof

/-- A used field holds 0..7: bit 3 of it is 0 (R61). -/
def RegField.named (f : RegField) : Bool := !f.getLsbD 3

/-- Every register field the command uses names a register (R61, R65). -/
def Instr.WellFormed : Instr → Bool
  | .dadd rd ra rb => RegField.named rd && RegField.named ra && RegField.named rb
  | .dsub rd ra rb => RegField.named rd && RegField.named ra && RegField.named rb
  | .dmul rd ra rb => RegField.named rd && RegField.named ra && RegField.named rb
  | .ddiv rd ra rb => RegField.named rd && RegField.named ra && RegField.named rb
  | .dlt ra rb => RegField.named ra && RegField.named rb
  | .dle ra rb => RegField.named ra && RegField.named rb
  | .dgt ra rb => RegField.named ra && RegField.named rb
  | .dge ra rb => RegField.named ra && RegField.named rb
  | .deq ra rb => RegField.named ra && RegField.named rb
  | .dne ra rb => RegField.named ra && RegField.named rb
  | .dtrunc rd ra => RegField.named rd && RegField.named ra
  | .dround rd ra => RegField.named rd && RegField.named ra
  | .dfloor rd ra => RegField.named rd && RegField.named ra
  | .dneg rd ra => RegField.named rd && RegField.named ra
  | .i2d rd ra => RegField.named rd && RegField.named ra
  | .f2d rd ra => RegField.named rd && RegField.named ra
  | .d2i rd ra => RegField.named rd && RegField.named ra
  | .d2f rd ra => RegField.named rd && RegField.named ra

end Sys2Proof
end

