-- ==== Sys2Proof/Decode.lean ====
section
/-! DEFINITION. The command decoder, total on every 32-bit word and rejecting by name (R60 to R66), and the encoder
written from the same table. -/

namespace Sys2Proof

/-- Why a word is illegal (R66). -/
inductive DecodeError where
  /-- A bit of `c[31:20]` is set. -/
  | reservedBits
  /-- `c[7:0]` is no opcode of R64. -/
  | reservedOpcode
  /-- A field the form uses holds 8..15. -/
  | registerIndex
  /-- A field the form does not use is not 0. -/
  | unusedField
  deriving DecidableEq, Repr

/-- OPC, bits 7:0 (R60). -/
def fieldOpc (c : Word) : BitVec 8 := c.extractLsb' 0 8

/-- RD, bits 11:8 (R60). -/
def fieldRd (c : Word) : RegField := c.extractLsb' 8 4

/-- RA, bits 15:12 (R60). -/
def fieldRa (c : Word) : RegField := c.extractLsb' 12 4

/-- RB, bits 19:16 (R60). -/
def fieldRb (c : Word) : RegField := c.extractLsb' 16 4

/-- The reserved bits 31:20 (R60). -/
def fieldTop (c : Word) : BitVec 12 := c.extractLsb' 20 12

/-- Form DDD: RD, RA and RB used (R62). -/
def decodeDDD (mk : RegField → RegField → RegField → Instr) (c : Word) : Except DecodeError Instr :=
  if RegField.named (fieldRd c) && RegField.named (fieldRa c) && RegField.named (fieldRb c) then
    .ok (mk (fieldRd c) (fieldRa c) (fieldRb c))
  else .error .registerIndex

/-- Form CMP: RA and RB used, RD unused (R62). -/
def decodeCMP (mk : RegField → RegField → Instr) (c : Word) : Except DecodeError Instr :=
  if fieldRd c ≠ 0#4 then .error .unusedField
  else if RegField.named (fieldRa c) && RegField.named (fieldRb c) then .ok (mk (fieldRa c) (fieldRb c))
  else .error .registerIndex

/-- Forms DD, DS and SD: RD and RA used, RB unused (R62). -/
def decodeUnary (mk : RegField → RegField → Instr) (c : Word) : Except DecodeError Instr :=
  if fieldRb c ≠ 0#4 then .error .unusedField
  else if RegField.named (fieldRd c) && RegField.named (fieldRa c) then .ok (mk (fieldRd c) (fieldRa c))
  else .error .registerIndex

/-- The command a word encodes, or why it is illegal (R64, R65, R66). -/
def decode (c : Word) : Except DecodeError Instr :=
  if fieldTop c ≠ 0#12 then .error .reservedBits
  else match (fieldOpc c).toNat with
    | 0x01 => decodeDDD .dadd c
    | 0x02 => decodeDDD .dsub c
    | 0x03 => decodeDDD .dmul c
    | 0x04 => decodeDDD .ddiv c
    | 0x10 => decodeCMP .dlt c
    | 0x11 => decodeCMP .dle c
    | 0x12 => decodeCMP .dgt c
    | 0x13 => decodeCMP .dge c
    | 0x14 => decodeCMP .deq c
    | 0x15 => decodeCMP .dne c
    | 0x20 => decodeUnary .dtrunc c
    | 0x21 => decodeUnary .dround c
    | 0x22 => decodeUnary .dfloor c
    | 0x23 => decodeUnary .dneg c
    | 0x30 => decodeUnary .i2d c
    | 0x31 => decodeUnary .f2d c
    | 0x32 => decodeUnary .d2i c
    | 0x33 => decodeUnary .d2f c
    | _ => .error .reservedOpcode

/-- A word from its fields, `(RB << 16) | (RA << 12) | (RD << 8) | OPC`: the fields do not overlap, so the or is a sum (R60, R68). -/
def wordOf (rb ra rd : RegField) (opc : BitVec 8) : Word :=
  BitVec.ofNat 32 (rb.toNat * 2 ^ 16 + ra.toNat * 2 ^ 12 + rd.toNat * 2 ^ 8 + opc.toNat)

/-- The command word of a command, its unused fields 0 (R60, R64, R68). -/
def encode : Instr → Word
  | .dadd rd ra rb => wordOf rb ra rd 0x01#8
  | .dsub rd ra rb => wordOf rb ra rd 0x02#8
  | .dmul rd ra rb => wordOf rb ra rd 0x03#8
  | .ddiv rd ra rb => wordOf rb ra rd 0x04#8
  | .dlt ra rb => wordOf rb ra 0#4 0x10#8
  | .dle ra rb => wordOf rb ra 0#4 0x11#8
  | .dgt ra rb => wordOf rb ra 0#4 0x12#8
  | .dge ra rb => wordOf rb ra 0#4 0x13#8
  | .deq ra rb => wordOf rb ra 0#4 0x14#8
  | .dne ra rb => wordOf rb ra 0#4 0x15#8
  | .dtrunc rd ra => wordOf 0#4 ra rd 0x20#8
  | .dround rd ra => wordOf 0#4 ra rd 0x21#8
  | .dfloor rd ra => wordOf 0#4 ra rd 0x22#8
  | .dneg rd ra => wordOf 0#4 ra rd 0x23#8
  | .i2d rd ra => wordOf 0#4 ra rd 0x30#8
  | .f2d rd ra => wordOf 0#4 ra rd 0x31#8
  | .d2i rd ra => wordOf 0#4 ra rd 0x32#8
  | .d2f rd ra => wordOf 0#4 ra rd 0x33#8

/-- A command word from the opcode table's numbering: bit 0 is its bit 0, bits from `nbits` up are 0. -/
def tableWord (nbits w : Nat) : Word := BitVec.ofNat 32 (w % 2 ^ nbits)

/-- The command the decoder reads from a word numbered as spec/opcode_table.json numbers it. -/
def decodeTableWord (nbits w : Nat) : Option Instr := (decode (tableWord nbits w)).toOption

end Sys2Proof
end

