-- ==== Sys2Proof/Machine/State.lean ====
section
/-! DEFINITION. The state of DCORE (10_state.md) and of the one host that drives it (R59), as plain data; the reasons a step stops;
the state after reset (R31). -/

namespace Sys2Proof.Machine

/-- One decimal register: a 128-bit pattern as four words, `w0` the least significant mantissa word, `w3` the
control word (R21, R24). Any pattern can stand here: the host may write one that is not well formed. -/
structure DReg where
  w0 : Word
  w1 : Word
  w2 : Word
  w3 : Word
  deriving DecidableEq, Repr

/-- The two register files: `D[0..7]` (R24) and `S[0..7]` (R25). -/
structure Regs where
  d : Vector DReg 8
  s : Vector Word 8
  deriving DecidableEq, Repr

/-- The five error codes (R221); no other value is ever written (R35). -/
inductive ErrorCode where
  | ok
  | overflowLarge
  | overflowSmall
  | divisionByZero
  | invalidArgument
  deriving DecidableEq, Repr

/-- STATUS without BUSY: EC, CF, ES and PV (R26). BUSY has its one home in `State.latch` (R38, R29); the reserved
bits read as zero and hold nothing. -/
structure Status where
  ec : ErrorCode
  cf : Bool
  es : Bool
  pv : Bool
  deriving DecidableEq, Repr

/-- The in-flight command latch (R29, R70): the command word and the registers as they stood at acceptance.
`wait` is the model's: the host turns left before the completion, drawn from `Config.cmdLatency` (assumption 2). -/
structure Latch where
  word : Word
  regs : Regs
  wait : Nat
  deriving DecidableEq, Repr

/-- What a host branch tests on the last STATUS value the host read (R69 `IF`). -/
inductive HostCond where
  | ecIs (k : Nat)
  | ecIsNot (k : Nat)
  | cfIs (b : Bool)
  | esSet
  deriving DecidableEq, Repr

/-- One move of the host (R59, R69). `reset` is the platform's reset signal (R250), placed where it is asserted. -/
inductive HostOp where
  /-- `MemWrite(addr, bytes, value)`. -/
  | write (addr bytes : Nat) (value : Word)
  /-- `MemRead(addr, bytes)`. -/
  | read (addr bytes : Nat)
  /-- `RDST`: `st <- MemRead(0xA4, 4)`. -/
  | readStatus
  /-- `WAIT`: read STATUS into `st`, again and again until `st[8] = 0`. -/
  | wait
  /-- `IF cond GOTO target`. -/
  | branch (cond : HostCond) (target : Nat)
  /-- `GOTO target`. -/
  | jump (target : Nat)
  /-- `HALT`. -/
  | halt
  /-- The reset signal. -/
  | reset
  deriving DecidableEq, Repr

/-- What a window offset holds (R41). -/
inductive WindowReg where
  /-- Word `w<k>` of `D[n]`. -/
  | dword (n : Fin 8) (k : Fin 4)
  | sreg (n : Fin 8)
  | cmd
  | status
  | reserved
  deriving DecidableEq, Repr

/-- The effect on a register or on CF that a command returns beside its error code (R71, R72, R74). -/
inductive Write where
  /-- No register and no CF. -/
  | nothing
  | dreg (n : Fin 8) (v : DReg)
  | sreg (n : Fin 8) (v : Word)
  | cf (b : Bool)
  deriving DecidableEq, Repr

/-- A decimal record `{m, s, neg}`: it denotes `(-1)^neg × m / 10^s` (R2, R10). -/
structure Dec where
  m : Nat
  s : Nat
  neg : Bool
  deriving DecidableEq, Repr

/-- A mantissa with its scale, the datapath's unsigned operand (R109, R110). -/
structure Mag where
  m : Nat
  s : Nat
  deriving DecidableEq, Repr

/-- The state: DCORE's `D`, `S`, STATUS, CMD and in-flight latch (R20); then the host agent (R59): its script, its
place in it, the last STATUS value it read and every value a read gave it, oldest first; then the model's
own count of accepted commands, which draws the latency. -/
structure State where
  regs : Regs
  status : Status
  cmd : Word
  latch : Option Latch
  script : List HostOp
  hpc : Nat
  st : Word
  replies : List Word
  accepted : Nat
  deriving DecidableEq, Repr

/-- Why the machine stops. All three are faults of the host program, not of DCORE (R43, R229, U11); each is safe:
the model stops where a real bus might go on. -/
inductive Fault where
  /-- Raised by a host read or write of another width than 4 bytes. Safe. -/
  | hostAccessWidth
  /-- Raised by a host read or write of an address outside the window. Safe. -/
  | hostAccessOutsideWindow
  /-- Raised by a host read or write at an offset that is no multiple of 4. Safe. -/
  | hostAccessMisaligned
  deriving DecidableEq, Repr

/-- Why a command has no meaning. -/
inductive Refusal where
  /-- Raised by `exec` for a command not modelled yet; no command is left so. Safe. -/
  | notModelled (mnemonic : String)
  deriving DecidableEq, Repr

/-- `+0` at scale 0, the all-zero pattern (R31). -/
def DReg.zero : DReg := ⟨0#32, 0#32, 0#32, 0#32⟩

/-- The state after reset: `D`, `S`, STATUS and CMD all zero, the latch empty (R31, R250). The host's fields have no value
in the spec: no script is loaded and nothing has been read (assumption 5). -/
def State.reset : State where
  regs := ⟨Vector.replicate 8 DReg.zero, Vector.replicate 8 0#32⟩
  status := ⟨.ok, false, false, false⟩
  cmd := 0#32
  latch := none
  script := []
  hpc := 0
  st := 0#32
  replies := []
  accepted := 0

/-- STATUS.BUSY: 1 exactly while a command is in flight (R29, R38). -/
def State.busy (s : State) : Bool := s.latch.isSome

end Sys2Proof.Machine
end

