-- ==== Sys2Proof/Machine/Datapath.lean ====
section
/-! DEFINITION. The datapath primitives, components 1 to 3 (R3; 40_datapath.md): accessors, wide arithmetic, banker's
rounding, normalization, scale alignment, and the mechanism of the long division. Mantissas are naturals (U7). -/

namespace Sys2Proof.Machine

/-- `setSign` (R100). -/
def setSign (v : Dec) (n : Bool) : Dec := { v with neg := n }

/-- `setScale`: a scale outside 0..28 is ignored (R100, U5). -/
def setScale (v : Dec) (k : Int) : Dec :=
  if 0 ≤ k ∧ k ≤ (Config.scaleMax : Int) then { v with s := k.toNat } else v

/-- `isZero`: the mantissa is 0, whatever the sign and the scale (R101, R34). -/
def isZero (v : Dec) : Bool := v.m == 0

/-- `compareMagnitude` on two mantissas: −1, 0 or 1 (R102). -/
def compareMagnitude (ma mb : Nat) : Int := if ma < mb then -1 else if ma = mb then 0 else 1

/-- `mulByTen`: `10 × m` with `true` for OK, or `m` unchanged with `false` for Overflow (R104, D24). -/
def mulByTen (m : Nat) : Nat × Bool := if 10 * m ≤ Config.maxMant then (10 * m, true) else (m, false)

/-- `divByTen`: quotient and remainder digit (R105). -/
def divByTen (m : Nat) : Nat × Nat := (m / 10, m % 10)

/-- `shiftLeft` on a 96-bit mantissa, with `true` for Overflow (R106). -/
def shiftLeft (m n : Nat) : Nat × Bool := ((m * 2 ^ n) % 2 ^ 96, decide (m * 2 ^ n > Config.maxMant))

/-- `divTenRound`: divide by ten, a dropped 5 rounding to the even quotient (R107, D25). -/
def divTenRound (m : Nat) : Nat :=
  if (divByTen m).2 > 5 ∨ ((divByTen m).2 = 5 ∧ (divByTen m).1 % 2 = 1) then (divByTen m).1 + 1
  else (divByTen m).1

/-- `normalize`: strip exact trailing zero digits while the scale is above 0 (R109). -/
def normalize (m : Nat) : Nat → Mag
  | 0 => ⟨m, 0⟩
  | s + 1 => if m % 10 = 0 then normalize (m / 10) s else ⟨m, s + 1⟩

/-- The loop of `align` (R110). `raising` is its flag; every turn closes the gap between the scales by one, so the gap is
fuel enough. -/
def alignLoop : Nat → Bool → Mag → Mag → Mag × Mag
  | 0, _, a, b => (a, b)
  | n + 1, raising, a, b =>
    if a.s = b.s then (a, b)
    else if a.s < b.s then
      if raising && (mulByTen a.m).2 then alignLoop n true ⟨(mulByTen a.m).1, a.s + 1⟩ b
      else alignLoop n false a ⟨divTenRound b.m, b.s - 1⟩
    else
      if raising && (mulByTen b.m).2 then alignLoop n true a ⟨(mulByTen b.m).1, b.s + 1⟩
      else alignLoop n false ⟨divTenRound a.m, a.s - 1⟩ b

/-- `align`: bring two (mantissa, scale) pairs to one scale (R110). -/
def align (a b : Mag) : Mag × Mag := alignLoop ((a.s - b.s) + (b.s - a.s)) true a b

/-- `truncMag`: drop the last `s` decimal digits (R170). -/
def truncMag (m : Nat) : Nat → Nat
  | 0 => m
  | s + 1 => truncMag (divByTen m).1 s

/-- One pass of the source's restoring binary long division over the dividend's bits `n-1 .. 0`, from quotient `q` and
remainder `r`, the remainder in a register of `Config.divRemBits` bits (R133, D26). -/
def restoringLoop (dividend divisor : Nat) : Nat → Nat → Nat → Nat × Nat
  | 0, q, r => (q, r)
  | n + 1, q, r =>
    let r2 := (2 * r + (dividend / 2 ^ n) % 2) % 2 ^ Config.divRemBits
    if r2 ≥ divisor then restoringLoop dividend divisor n (2 * q + 1) (r2 - divisor)
    else restoringLoop dividend divisor n (2 * q) r2

/-- The long division as the source describes it, bit positions 95 down to 0 (R133). DDIV takes its result as `div` and
`mod` (U8); that the two agree is one of the statements. -/
def restoringDivide (dividend divisor : Nat) : Nat × Nat := restoringLoop dividend divisor 96 0 0

end Sys2Proof.Machine
end

