-- ==== Sys2Proof/Machine/Operands.lean ====
section
/-! DEFINITION. The decimal format in a register (R21 to R23), the register files' reads and writes (R24, R25) and the
register a command field names (R61, R63). -/

namespace Sys2Proof.Machine

/-- `pack(m, s, neg)`, with `(neg << 31) | (s << 16)` as a sum of fields that do not overlap (R21). -/
def pack (v : Dec) : DReg where
  w0 := BitVec.ofNat 32 v.m
  w1 := BitVec.ofNat 32 (v.m / 2 ^ 32)
  w2 := BitVec.ofNat 32 (v.m / 2 ^ 64)
  w3 := BitVec.ofNat 32 ((if v.neg then 2 ^ 31 else 0) + v.s * 2 ^ 16)

/-- The SIGN field, bit 31 of the control word (R21). -/
def signOf (r : DReg) : Bool := r.w3.getLsbD 31

/-- The SCALE field, bits 23:16 of the control word (R21, R22). -/
def scaleOf (r : DReg) : Nat := (r.w3.extractLsb' 16 8).toNat

/-- The mantissa of a pattern (R22). -/
def mantOf (r : DReg) : Nat := r.w0.toNat + r.w1.toNat * 2 ^ 32 + r.w2.toNat * 2 ^ 64

/-- `unpack(w0, w1, w2, w3)` (R22). -/
def unpack (r : DReg) : Dec := ⟨mantOf r, scaleOf r, signOf r⟩

/-- A well-formed decimal: reserved bits 15:0 and 30:24 zero, scale at most 28 (R23). -/
def wellFormedD (r : DReg) : Bool :=
  r.w3.extractLsb' 0 16 == 0#16 && r.w3.extractLsb' 24 7 == 0#7 && decide (scaleOf r ≤ Config.scaleMax)

/-- The register a used field names, if it names one (R61, R63). -/
def regIndex (f : RegField) : Option (Fin 8) := if h : f.toNat < 8 then some ⟨f.toNat, h⟩ else none

/-- The field that names register `n` (R61). -/
def regField (n : Fin 8) : RegField := BitVec.ofNat 4 n.val

/-- Read `D[n]` (R24). -/
def readD (r : Regs) (n : Fin 8) : DReg := r.d[n.val]

/-- Write `D[n]` (R24). -/
def writeD (r : Regs) (n : Fin 8) (v : DReg) : Regs := { r with d := r.d.set n.val v }

/-- Read `S[n]` (R25). -/
def readS (r : Regs) (n : Fin 8) : Word := r.s[n.val]

/-- Write `S[n]` (R25). -/
def writeS (r : Regs) (n : Fin 8) (v : Word) : Regs := { r with s := r.s.set n.val v }

/-- Word `w<k>` of a decimal register (R21, R41, R46). -/
def dregWord (r : DReg) (k : Fin 4) : Word :=
  match k with
  | 0 => r.w0
  | 1 => r.w1
  | 2 => r.w2
  | 3 => r.w3

/-- A decimal register with word `w<k>` replaced (R41, R48). -/
def setDregWord (r : DReg) (k : Fin 4) (v : Word) : DReg :=
  match k with
  | 0 => { r with w0 := v }
  | 1 => { r with w1 := v }
  | 2 => { r with w2 := v }
  | 3 => { r with w3 := v }

end Sys2Proof.Machine
end

