-- ==== Sys2Proof/Machine/Flags.lean ====
section
/-! DEFINITION. STATUS: its layout, its write-1-to-clear bits and what a completion writes to it (R26, R35 to R38, R221, R222). -/

namespace Sys2Proof.Machine

/-- The value of an error code in STATUS.EC (R221). -/
def ecCode : ErrorCode → BitVec 3
  | .ok => 0#3
  | .overflowLarge => 1#3
  | .overflowSmall => 2#3
  | .divisionByZero => 3#3
  | .invalidArgument => 4#3

/-- STATUS as a host reads it: bits 31:9 zero, BUSY, bits 7:6 zero, PV, ES, CF, EC (R26). -/
def statusWord (st : Status) (busy : Bool) : Word :=
  0#23 ++ BitVec.ofBool busy ++ 0#2 ++ BitVec.ofBool st.pv ++ BitVec.ofBool st.es ++ BitVec.ofBool st.cf ++ ecCode st.ec

/-- A host write to STATUS clears ES by a 1 in bit 4 and PV by a 1 in bit 5, and nothing else (R26). -/
def clearSticky (v : Word) (st : Status) : Status :=
  { st with es := st.es && !v.getLsbD 4, pv := st.pv && !v.getLsbD 5 }

/-- The error STATUS takes at completion: EC always, ES if the code is not OK (R222, R35, R37). -/
def finishStatus (ec : ErrorCode) (st : Status) : Status := { st with ec := ec, es := st.es || ec != .ok }

/-- The overflow code by the sign the result would have had (R134). -/
def overflowCode (neg : Bool) : ErrorCode := if neg then .overflowSmall else .overflowLarge

end Sys2Proof.Machine
end

