-- ==== Sys2Proof/Machine/Ops.lean ====
section
/-! DEFINITION. The operations every command is made of (R70 to R74): the latched sources, the completion, and the execution frame of
each operand form. DCORE takes no exception (R220, R224): `completeWith` is the one operation by which a command ends, failing or not. -/

namespace Sys2Proof.Machine

/-- The outcome of a step of this machine. -/
abbrev Result := Host.Outcome State Fault Refusal

/-- The registers a command reads: the latched ones while a command is in flight (R29, R70, R71). With an empty latch they are the registers as
they stand, as for a command accepted and completed with no access between. -/
def sources (s : State) : Regs :=
  match s.latch with
  | some l => l.regs
  | none => s.regs

/-- The register writes of a completion (R72, R74). -/
def writeRegs (w : Write) (r : Regs) : Regs :=
  match w with
  | .nothing => r
  | .dreg n v => writeD r n v
  | .sreg n v => writeS r n v
  | .cf _ => r

/-- CF after a completion: written by a comparison that returned one (R36, R72). -/
def writeCf (w : Write) (st : Status) : Status :=
  match w with
  | .cf b => { st with cf := b }
  | _ => st

/-- Completion, in one indivisible step: the returned effect, EC, ES, and BUSY ← 0 with the latch emptied (R72, R222, R29). -/
def completeWith (w : Write) (ec : ErrorCode) (s : State) : State :=
  { s with regs := writeRegs w s.regs, status := finishStatus ec (writeCf w s.status), latch := none }

/-- The completion of a command that fails validation: InvalidArgument and nothing else (R71, R66, R223). -/
def completeInvalid (s : State) : State := completeWith .nothing .invalidArgument s

/-- The decimal result of a command that fails in its own computation: `pack(0, 0, 0)` (R223). -/
def zeroDec : Dec := ⟨0, 0, false⟩

/-- Form DDD (R62, R71): the checks of R226 in their order, then `sem` on the two operands, its result to `D[RD]` whatever its code
(R74, R223). -/
def runDDD (sem : Dec → Dec → Dec × ErrorCode) (rd ra rb : RegField) (s : State) : Result :=
  match regIndex rd, regIndex ra, regIndex rb with
  | some d, some a, some b =>
    if !wellFormedD (readD (sources s) a) then .next (completeInvalid s)
    else if !wellFormedD (readD (sources s) b) then .next (completeInvalid s)
    else
      let r := sem (unpack (readD (sources s) a)) (unpack (readD (sources s) b))
      .next (completeWith (.dreg d (pack r.1)) r.2 s)
  | _, _, _ => .next (completeInvalid s)

/-- Form CMP (R62, R71): the relation of the two operands to CF, EC = OK. -/
def runCMP (rel : Dec → Dec → Bool) (ra rb : RegField) (s : State) : Result :=
  match regIndex ra, regIndex rb with
  | some a, some b =>
    if !wellFormedD (readD (sources s) a) then .next (completeInvalid s)
    else if !wellFormedD (readD (sources s) b) then .next (completeInvalid s)
    else
      .next (completeWith (.cf (rel (unpack (readD (sources s) a)) (unpack (readD (sources s) b)))) .ok s)
  | _, _ => .next (completeInvalid s)

/-- Form DD (R62, R71): one decimal operand, a decimal result. -/
def runDD (sem : Dec → Dec × ErrorCode) (rd ra : RegField) (s : State) : Result :=
  match regIndex rd, regIndex ra with
  | some d, some a =>
    if !wellFormedD (readD (sources s) a) then .next (completeInvalid s)
    else
      let r := sem (unpack (readD (sources s) a))
      .next (completeWith (.dreg d (pack r.1)) r.2 s)
  | _, _ => .next (completeInvalid s)

/-- Form DS (R62, R71): a scalar operand, which needs no check, and a decimal result. -/
def runDS (sem : Word → Dec × ErrorCode) (rd ra : RegField) (s : State) : Result :=
  match regIndex rd, regIndex ra with
  | some d, some a =>
    let r := sem (readS (sources s) a)
    .next (completeWith (.dreg d (pack r.1)) r.2 s)
  | _, _ => .next (completeInvalid s)

/-- Form SD (R62, R71): a decimal operand and a scalar result. -/
def runSD (sem : Dec → Word × ErrorCode) (rd ra : RegField) (s : State) : Result :=
  match regIndex rd, regIndex ra with
  | some d, some a =>
    if !wellFormedD (readD (sources s) a) then .next (completeInvalid s)
    else
      let r := sem (unpack (readD (sources s) a))
      .next (completeWith (.sreg d r.1) r.2 s)
  | _, _ => .next (completeInvalid s)

end Sys2Proof.Machine
end

