-- ==== Sys2Proof/Machine/Arithmetic.lean ====
section
/-! DEFINITION. The arithmetic commands DADD, DSUB, DMUL, DDIV (41_arithmetic.md). -/

namespace Sys2Proof.Machine

/-- DADD on magnitudes of one sign at one scale: a carry at a scale above 0 is reclaimed by one `divTenRound` (R130). -/
def addMagnitudes (ma mb s : Nat) (neg : Bool) : Dec × ErrorCode :=
  let acc := if ma + mb > Config.maxMant ∧ s > 0 then divTenRound (ma + mb) else ma + mb
  let s' := if ma + mb > Config.maxMant ∧ s > 0 then s - 1 else s
  if acc > Config.maxMant then (zeroDec, overflowCode neg) else (⟨acc, s', neg⟩, .ok)

/-- DADD on aligned magnitudes of different signs: the smaller from the larger, the larger one's sign, a tie `+0` (R130, D41). -/
def subMagnitudes (ma mb s : Nat) (nega negb : Bool) : Dec × ErrorCode :=
  if ma > mb then (⟨ma - mb, s, nega⟩, .ok)
  else if mb > ma then (⟨mb - ma, s, negb⟩, .ok)
  else (⟨0, s, false⟩, .ok)

/-- `sem_DADD` (R130). -/
def semDadd (a b : Dec) : Dec × ErrorCode :=
  let p := align ⟨a.m, a.s⟩ ⟨b.m, b.s⟩
  if a.neg = b.neg then addMagnitudes p.1.m p.2.m p.1.s a.neg
  else subMagnitudes p.1.m p.2.m p.1.s a.neg b.neg

/-- `sem_DSUB`: add the second operand with its sign flipped (R131). -/
def semDsub (a b : Dec) : Dec × ErrorCode := semDadd a (setSign b (!b.neg))

/-- The reduction loop of DMUL, from product `p` at a scale (R132). -/
def mulReduce (p : Nat) : Nat → Mag
  | 0 => ⟨p, 0⟩
  | s + 1 => if p > Config.maxMant ∨ s + 1 > Config.scaleMax then mulReduce (divTenRound p) s else ⟨p, s + 1⟩

/-- `sem_DMUL` (R132, D29). -/
def semDmul (a b : Dec) : Dec × ErrorCode :=
  let r := mulReduce (a.m * b.m) (a.s + b.s)
  if r.m > Config.maxMant then (zeroDec, overflowCode (a.neg ^^ b.neg))
  else (⟨r.m, if r.m = 0 then 0 else r.s, a.neg ^^ b.neg⟩, .ok)

/-- The first loop of DDIV, `n` turns: raise the dividend, else lower the divisor (R133). -/
def divRaise : Nat → Nat → Nat → Nat × Nat
  | 0, da, db => (da, db)
  | n + 1, da, db =>
    if (mulByTen da).2 then divRaise n (mulByTen da).1 db else divRaise n da (divTenRound db)

/-- The fractional digits of DDIV from quotient `q`, remainder `r` and target scale `t`; the scale stops at 28, so 28 turns
are fuel enough (R133, D27). -/
def divExpand (db : Nat) : Nat → Nat → Nat → Nat → Mag
  | 0, q, _, t => ⟨q, t⟩
  | n + 1, q, r, t =>
    if r = 0 ∨ t ≥ Config.scaleMax then ⟨q, t⟩
    else if !(mulByTen q).2 || !(mulByTen r).2 then ⟨q, t⟩
    else if (mulByTen q).1 + (mulByTen r).1 / db > Config.maxMant then ⟨q, t⟩
    else divExpand db n ((mulByTen q).1 + (mulByTen r).1 / db) ((mulByTen r).1 % db) (t + 1)

/-- `sem_DDIV` (R133). The target scale `a.s - b.s` starts below 0 by `b.s - a.s`, which the first loop takes up, and then is
`a.s - b.s` or 0: the two truncated differences below. -/
def semDdiv (a b : Dec) : Dec × ErrorCode :=
  if isZero b then (zeroDec, .divisionByZero)
  else
    let p := divRaise (b.s - a.s) a.m b.m
    if p.2 = 0 then (zeroDec, .divisionByZero)
    else
      let r := divExpand p.2 Config.scaleMax (p.1 / p.2) (p.1 % p.2) (a.s - b.s)
      (⟨r.m, r.s, a.neg ^^ b.neg⟩, .ok)

/-- DADD (R130). -/
def execDadd (rd ra rb : RegField) (s : State) : Result := runDDD semDadd rd ra rb s

/-- DSUB (R131). -/
def execDsub (rd ra rb : RegField) (s : State) : Result := runDDD semDsub rd ra rb s

/-- DMUL (R132). -/
def execDmul (rd ra rb : RegField) (s : State) : Result := runDDD semDmul rd ra rb s

/-- DDIV (R133). -/
def execDdiv (rd ra rb : RegField) (s : State) : Result := runDDD semDdiv rd ra rb s

end Sys2Proof.Machine
end

