-- ==== Sys2Proof/Machine/Compare.lean ====
section
/-! DEFINITION. The comparison commands DLT, DLE, DGT, DGE, DEQ, DNE (42_compare.md). -/

namespace Sys2Proof.Machine

/-- The sign of an operand for ordering: a zero counts as non-negative (R150, D39). -/
def orderSign (v : Dec) : Bool := if isZero v then false else v.neg

/-- `ord` (R150). -/
def ord (a b : Dec) : Ordering :=
  if isZero a && isZero b then .eq
  else if orderSign a ≠ orderSign b then (if orderSign a then .lt else .gt)
  else
    let p := align (normalize a.m a.s) (normalize b.m b.s)
    let c := compareMagnitude p.1.m p.2.m
    let c' := if orderSign a then -c else c
    if c' < 0 then .lt else if c' = 0 then .eq else .gt

/-- `eqStrict` (R155). -/
def eqStrict (a b : Dec) : Bool :=
  let p := align ⟨a.m, a.s⟩ ⟨b.m, b.s⟩
  a.neg == b.neg && p.1.m == p.2.m

/-- The relation of DLT: `a < b` (R151). -/
def relDlt (a b : Dec) : Bool := ord a b == .lt

/-- The relation of DLE: `a <= b` (R152). -/
def relDle (a b : Dec) : Bool := ord a b == .lt || ord a b == .eq

/-- The relation of DGT: `a > b` (R153). -/
def relDgt (a b : Dec) : Bool := ord a b == .gt

/-- The relation of DGE: `a >= b` (R154). -/
def relDge (a b : Dec) : Bool := ord a b == .gt || ord a b == .eq

/-- The relation of DEQ (R156). -/
def relDeq (a b : Dec) : Bool := eqStrict a b

/-- The relation of DNE (R157). -/
def relDne (a b : Dec) : Bool := !eqStrict a b

/-- DLT (R151). -/
def execDlt (ra rb : RegField) (s : State) : Result := runCMP relDlt ra rb s

/-- DLE (R152). -/
def execDle (ra rb : RegField) (s : State) : Result := runCMP relDle ra rb s

/-- DGT (R153). -/
def execDgt (ra rb : RegField) (s : State) : Result := runCMP relDgt ra rb s

/-- DGE (R154). -/
def execDge (ra rb : RegField) (s : State) : Result := runCMP relDge ra rb s

/-- DEQ (R156). -/
def execDeq (ra rb : RegField) (s : State) : Result := runCMP relDeq ra rb s

/-- DNE (R157). -/
def execDne (ra rb : RegField) (s : State) : Result := runCMP relDne ra rb s

end Sys2Proof.Machine
end

