-- ==== Sys2Proof/Machine/Float.lean ====
section
/-! DEFINITION. Exact fractions and binary floating point for the conversions (R11, R12, R192, R196). Magnitudes only: the sign is a
separate bit. -/

namespace Sys2Proof.Machine

/-- A non-negative fraction `num / den`, with `den > 0` wherever the rules build one. -/
structure Frac where
  num : Nat
  den : Nat
  deriving DecidableEq, Repr

/-- A non-negative binary float `sig × 2^exp`. -/
structure BinFloat where
  sig : Nat
  exp : Int
  deriving DecidableEq, Repr

/-- `x < n` for a natural `n`. -/
def fracLtNat (x : Frac) (n : Nat) : Bool := decide (x.num < n * x.den)

/-- `x × 10^e`, exactly. -/
def fracScale10 (x : Frac) (e : Int) : Frac := ⟨x.num * 10 ^ e.toNat, x.den * 10 ^ (-e).toNat⟩

/-- `x × 2^e`, exactly. -/
def fracScale2 (x : Frac) (e : Int) : Frac := ⟨x.num * 2 ^ e.toNat, x.den * 2 ^ (-e).toNat⟩

/-- `rhe`: the integer nearest `x`, a tie going to the even one (R12). -/
def rhe (x : Frac) : Nat :=
  if 2 * (x.num % x.den) > x.den ∨ (2 * (x.num % x.den) = x.den ∧ (x.num / x.den) % 2 = 1) then x.num / x.den + 1
  else x.num / x.den

/-- The integer `l` with `2^l ≤ x < 2^(l+1)`, for `x > 0`. -/
def floorLog2 (x : Frac) : Int :=
  let l : Int := (Nat.log2 x.num : Int) - (Nat.log2 x.den : Int)
  if fracLtNat (fracScale2 x (-l)) 1 then l - 1 else l

/-- Round to `prec` significant bits, ties to even, no exponent below `emin` (R11). -/
def roundFloat (prec : Nat) (emin : Int) (x : Frac) : BinFloat :=
  if x.num = 0 then ⟨0, emin⟩
  else
    let e := max (floorLog2 x - ((prec : Int) - 1)) emin
    ⟨rhe (fracScale2 x (-e)), e⟩

/-- The exact value of a float. -/
def floatValue (f : BinFloat) : Frac := if f.sig = 0 then ⟨0, 1⟩ else fracScale2 ⟨f.sig, 1⟩ f.exp

/-- `fl64` on magnitudes below the binary64 overflow bound, the only ones R196 makes (R11). -/
def fl64 (x : Frac) : Frac := floatValue (roundFloat 53 (-1074) x)

/-- `fl32` before its packing by `bits32` (R11). -/
def fl32 (x : Frac) : BinFloat := roundFloat 24 (-149) x

/-- `bits32` of a non-negative rounded binary32 value: exponent field 30:23 and fraction 22:0 (R11, R192). The significand's
leading bit, present from `2^23` up, adds the 1 that the biased exponent `exp + 150` still lacks; a value beyond the
largest finite one is the infinity pattern. -/
def bits32 (f : BinFloat) : Word :=
  if (f.exp + 149).toNat * 2 ^ 23 + f.sig ≥ 0x7F800000 then 0x7F800000#32
  else BitVec.ofNat 32 ((f.exp + 149).toNat * 2 ^ 23 + f.sig)

/-- The exponent field `x[30:23]` (R192). -/
def expField (x : Word) : BitVec 8 := x.extractLsb' 23 8

/-- The fraction field `x[22:0]` (R192). -/
def fracField (x : Word) : BitVec 23 := x.extractLsb' 0 23

/-- NaN or an infinity (R192, R193). -/
def isNanOrInf (x : Word) : Bool := expField x == 0xFF#8

/-- `|val32(x)|` of a finite pattern, exactly: subnormal `F × 2^-149`, normal `(2^23 + F) × 2^(E-150)` (R192). -/
def absVal32 (x : Word) : Frac :=
  if expField x = 0#8 then ⟨(fracField x).toNat, 2 ^ 149⟩
  else fracScale2 ⟨2 ^ 23 + (fracField x).toNat, 1⟩ (((expField x).toNat : Int) - 150)

end Sys2Proof.Machine
end

