-- ==== Sys2Proof/Machine/Conversion.lean ====
section
/-! DEFINITION. The conversion commands I2D, F2D, D2I, D2F (44_conversion.md). -/

namespace Sys2Proof.Machine

/-- `sem_I2D` of the two's-complement integer in `S[RA]` (R190). -/
def semI2d (x : Word) : Dec × ErrorCode := (⟨x.toInt.natAbs, 0, decide (x.toInt < 0)⟩, .ok)

/-- `sem_D2I` (R191, D37). -/
def semD2i (v : Dec) : Word × ErrorCode :=
  if truncMag v.m v.s > 2 ^ 32 - 1 ∨ truncMag v.m v.s > 2 ^ 31 then (0#32, .invalidArgument)
  else if v.neg = false ∧ truncMag v.m v.s > 2 ^ 31 - 1 then (0#32, .overflowLarge)
  else (BitVec.ofInt 32 (if v.neg then -(truncMag v.m v.s : Int) else (truncMag v.m v.s : Int)), .ok)

/-- Search downward from `e` for the first exponent with `X × 10^e < 10^7`. -/
def f2dSearch (x : Frac) : Nat → Int → Int
  | 0, e => e
  | n + 1, e => if fracLtNat (fracScale10 x e) (10 ^ Config.f2dDigits) then e else f2dSearch x n (e - 1)

/-- `6 - floor(log10(X))`, the integer `e` with `10^6 ≤ X × 10^e < 10^7` (R193). For a binary32 magnitude from `10^-28` up it lies
in −32..34, so a search from 34 with 67 turns meets it. -/
def f2dExponent (x : Frac) : Int := f2dSearch x 67 34

/-- The seven-digit value at scale exponent `e ≤ 28`, a negative scale folded back to 0 (R193). -/
def f2dFold (x : Frac) (e : Int) : Mag :=
  if e < 0 then ⟨rhe (fracScale10 x e) * 10 ^ (-e).toNat, 0⟩ else ⟨rhe (fracScale10 x e), e.toNat⟩

/-- `sem_F2D` (R193). -/
def semF2d (x : Word) : Dec × ErrorCode :=
  if isNanOrInf x then (zeroDec, .overflowLarge)
  else if (absVal32 x).num = 0 then (zeroDec, .ok)
  else if fracLtNat (fracScale10 (absVal32 x) 28) 1 then (zeroDec, .overflowSmall)
  else
    let r := f2dFold (absVal32 x) (min (f2dExponent (absVal32 x)) 28)
    if r.m > Config.maxMant then (zeroDec, .invalidArgument)
    else (⟨(normalize r.m r.s).m, (normalize r.m r.s).s, x.getLsbD 31⟩, .ok)

/-- `x + n × 2^k`, exactly. -/
def fracAddShifted (x : Frac) (n k : Nat) : Frac := ⟨x.num + n * 2 ^ k * x.den, x.den⟩

/-- The binary64 sum of the mantissa words in the order `w0`, `w1`, `w2`, rounded at every step (R196, D36). -/
def d2fSum (m : Nat) : Frac :=
  fl64 (fracAddShifted (fl64 (fracAddShifted (fl64 ⟨m % 2 ^ 32, 1⟩) (m / 2 ^ 32 % 2 ^ 32) 32)) (m / 2 ^ 64 % 2 ^ 32) 64)

/-- The quotient of two fractions. -/
def fracDiv (x y : Frac) : Frac := ⟨x.num * y.den, x.den * y.num⟩

/-- `sem_D2F` (R196, U17). -/
def semD2f (v : Dec) : Word × ErrorCode :=
  let q := fl64 (fracDiv (d2fSum v.m) (fl64 ⟨10 ^ v.s, 1⟩))
  (bits32 (fl32 q) ||| (if v.neg then 0x80000000#32 else 0#32), .ok)

/-- I2D (R190). -/
def execI2d (rd ra : RegField) (s : State) : Result := runDS semI2d rd ra s

/-- F2D (R193). -/
def execF2d (rd ra : RegField) (s : State) : Result := runDS semF2d rd ra s

/-- D2I (R191). -/
def execD2i (rd ra : RegField) (s : State) : Result := runSD semD2i rd ra s

/-- D2F (R196). -/
def execD2f (rd ra : RegField) (s : State) : Result := runSD semD2f rd ra s

end Sys2Proof.Machine
end

