-- ==== Sys2Proof/Machine/Shaping.lean ====
section
/-! DEFINITION. The rounding and shaping commands DTRUNC, DROUND, DFLOOR, DNEG (43_shaping.md). -/

namespace Sys2Proof.Machine

/-- `sem_DTRUNC` (R171). -/
def semDtrunc (v : Dec) : Dec × ErrorCode := (⟨truncMag v.m v.s, 0, v.neg⟩, .ok)

/-- The first fractional digit, by truncating division; 0 at scale 0 (R172, D30). -/
def firstDigit (v : Dec) : Nat := if v.s > 0 then (divByTen (truncMag v.m (v.s - 1))).2 else 0

/-- `sem_DROUND` (R172). -/
def semDround (v : Dec) : Dec × ErrorCode :=
  (⟨if firstDigit v ≥ 5 then truncMag v.m v.s + 1 else truncMag v.m v.s, 0, v.neg⟩, .ok)

/-- `sem_DFLOOR` (R173). -/
def semDfloor (v : Dec) : Dec × ErrorCode :=
  (⟨if v.neg ∧ v.m % 10 ^ v.s ≠ 0 then truncMag v.m v.s + 1 else truncMag v.m v.s, 0, v.neg⟩, .ok)

/-- `sem_DNEG` (R174). -/
def semDneg (v : Dec) : Dec × ErrorCode := (⟨v.m, v.s, !v.neg⟩, .ok)

/-- DTRUNC (R171). -/
def execDtrunc (rd ra : RegField) (s : State) : Result := runDD semDtrunc rd ra s

/-- DROUND (R172). -/
def execDround (rd ra : RegField) (s : State) : Result := runDD semDround rd ra s

/-- DFLOOR (R173). -/
def execDfloor (rd ra : RegField) (s : State) : Result := runDD semDfloor rd ra s

/-- DNEG (R174). -/
def execDneg (rd ra : RegField) (s : State) : Result := runDD semDneg rd ra s

end Sys2Proof.Machine
end

