-- ==== Sys2Proof/Machine/Dispatch.lean ====
section
/-! DEFINITION. The dispatch: one arm per command (R64). -/

namespace Sys2Proof.Machine

/-- The completion of a command (R71, R72). -/
def exec (i : Instr) (s : State) : Host.Outcome State Fault Refusal :=
  match i with
  | .dadd rd ra rb => Sys2Proof.Machine.execDadd rd ra rb s
  | .dsub rd ra rb => Sys2Proof.Machine.execDsub rd ra rb s
  | .dmul rd ra rb => Sys2Proof.Machine.execDmul rd ra rb s
  | .ddiv rd ra rb => Sys2Proof.Machine.execDdiv rd ra rb s
  | .dlt ra rb => Sys2Proof.Machine.execDlt ra rb s
  | .dle ra rb => Sys2Proof.Machine.execDle ra rb s
  | .dgt ra rb => Sys2Proof.Machine.execDgt ra rb s
  | .dge ra rb => Sys2Proof.Machine.execDge ra rb s
  | .deq ra rb => Sys2Proof.Machine.execDeq ra rb s
  | .dne ra rb => Sys2Proof.Machine.execDne ra rb s
  | .dtrunc rd ra => Sys2Proof.Machine.execDtrunc rd ra s
  | .dround rd ra => Sys2Proof.Machine.execDround rd ra s
  | .dfloor rd ra => Sys2Proof.Machine.execDfloor rd ra s
  | .dneg rd ra => Sys2Proof.Machine.execDneg rd ra s
  | .i2d rd ra => Sys2Proof.Machine.execI2d rd ra s
  | .f2d rd ra => Sys2Proof.Machine.execF2d rd ra s
  | .d2i rd ra => Sys2Proof.Machine.execD2i rd ra s
  | .d2f rd ra => Sys2Proof.Machine.execD2f rd ra s

end Sys2Proof.Machine
end

