-- ==== Sys2Proof/Machine/Window.lean ====
section
/-! DEFINITION. The register window: its map, the host's reads and writes, the acceptance of a command and the reset (R28, R40 to R49,
R70, R250). -/

namespace Sys2Proof.Machine

/-- The window map (R41): what stands at a byte offset that is a multiple of 4 and below 256. -/
def windowReg (off : Nat) : WindowReg :=
  if h : off < 0x80 then .dword ⟨off / 16, by omega⟩ ⟨off % 16 / 4, by omega⟩
  else if h2 : off < 0xA0 then .sreg ⟨(off - 0x80) / 4, by omega⟩
  else if off = 0xA0 then .cmd
  else if off = 0xA4 then .status
  else .reserved

/-- The offset of a host access, or the fault of one outside the contract: only 4 bytes, only inside the window, only at a multiple
of 4 (R43, R229, D7). -/
def windowOffset (addr bytes : Nat) : Except Fault Nat :=
  if bytes ≠ 4 then .error .hostAccessWidth
  else if addr < Config.dcoreBase ∨ addr ≥ Config.dcoreBase + Config.windowBytes then .error .hostAccessOutsideWindow
  else if (addr - Config.dcoreBase) % 4 ≠ 0 then .error .hostAccessMisaligned
  else .ok (addr - Config.dcoreBase)

/-- What a read of a window register returns, BUSY or not: the register's committed value (R41, R42, R45, R28). -/
def readReg (reg : WindowReg) (s : State) : Word :=
  match reg with
  | .dword n k => dregWord (readD s.regs n) k
  | .sreg n => readS s.regs n
  | .cmd => s.cmd
  | .status => statusWord s.status s.busy
  | .reserved => 0#32

/-- What a read at an offset returns (R41). -/
def windowRead (off : Nat) (s : State) : Word := readReg (windowReg off) s

/-- A host write ignored because BUSY = 1: the sticky PV is set (R44, R37). -/
def ignoreBusyWrite (s : State) : State := { s with status := { s.status with pv := true } }

/-- The latch takes the word and the registers as they stand, CMD takes the word, and BUSY becomes 1 (R70, R28). -/
def latchCommand (wait : Nat) (c : Word) (s : State) : State :=
  { s with cmd := c, latch := some ⟨c, s.regs, wait⟩ }

/-- Acceptance of a command word, whatever it encodes (R28, R70), with the latency of the command drawn (R7, R258). -/
def accept (c : Word) (s : State) : State :=
  { latchCommand (Config.cmdLatency s.accepted) c s with accepted := s.accepted + 1 }

/-- A host write to a window register (R26, R28, R41, R42, R44). -/
def writeReg (reg : WindowReg) (v : Word) (s : State) : State :=
  match reg with
  | .dword n k =>
    if s.busy then ignoreBusyWrite s
    else { s with regs := writeD s.regs n (setDregWord (readD s.regs n) k v) }
  | .sreg n => if s.busy then ignoreBusyWrite s else { s with regs := writeS s.regs n v }
  | .cmd => if s.busy then ignoreBusyWrite s else accept v s
  | .status => { s with status := clearSticky v s.status }
  | .reserved => s

/-- A host write at an offset (R41). -/
def windowWrite (off : Nat) (v : Word) (s : State) : State := writeReg (windowReg off) v s

/-- Reset: every piece of DCORE's state takes its reset value and a command in flight is discarded (R250, R31). The host agent and the
latency draws are not DCORE's and keep their place. -/
def resetDcore (s : State) : State :=
  { s with regs := State.reset.regs, status := State.reset.status, cmd := State.reset.cmd, latch := State.reset.latch }

end Sys2Proof.Machine
end

