-- ==== Sys2Proof/Machine/HostAgent.lean ====
section
/-! DEFINITION. The host as the agent that drives the window (R59): the moves of its script, when a completion is due between two
of them (R51, R72), and the pseudo-instructions of R69 as moves. -/

namespace Sys2Proof.Machine

/-- The host's next move, if its script has one at its place. -/
def hostNext (s : State) : Option HostOp := s.script[s.hpc]?

/-- The host has ended its script: at `HALT`, or past the last move (R69, R260). -/
def hostDone (s : State) : Bool := hostNext s == none || hostNext s == some .halt

/-- The run has ended (R260). -/
def runEnded (s : State) : Bool := hostDone s && !s.busy

/-- The command word whose completion is due now: the drawn latency has passed, or the host has no move left to make before it
(R72, R258, R260; assumption 2). -/
def dueWord (s : State) : Option Word :=
  match s.latch with
  | some l => if l.wait = 0 || hostDone s then some l.word else none
  | none => none

/-- One host turn passes while a command is in flight (R72). -/
def tick (s : State) : State := { s with latch := s.latch.map fun l => { l with wait := l.wait - 1 } }

/-- The host goes to the next move. -/
def advance (s : State) : State := { s with hpc := s.hpc + 1 }

/-- A read gives the host a value (R59). -/
def reply (v : Word) (s : State) : State := { s with replies := s.replies ++ [v] }

/-- The host reads STATUS into `st` (R69 `RDST`). -/
def pollStatus (s : State) : State := { reply (statusWord s.status s.busy) s with st := statusWord s.status s.busy }

/-- Whether a branch condition holds of a STATUS value (R69 `IF`, R26). -/
def condHolds (c : HostCond) (st : Word) : Bool :=
  match c with
  | .ecIs k => (st.extractLsb' 0 3).toNat == k
  | .ecIsNot k => (st.extractLsb' 0 3).toNat != k
  | .cfIs b => st.getLsbD 3 == b
  | .esSet => st.getLsbD 4

/-- One move of the host (R59, R69). -/
def hostMove (op : HostOp) (s : State) : Result :=
  match op with
  | .write addr bytes v =>
    match windowOffset addr bytes with
    | .ok off => .next (advance (windowWrite off v s))
    | .error f => .fault f
  | .read addr bytes =>
    match windowOffset addr bytes with
    | .ok off => .next (advance (reply (windowRead off s) s))
    | .error f => .fault f
  | .readStatus => .next (advance (pollStatus s))
  | .wait => .next (if s.busy then pollStatus s else advance (pollStatus s))
  | .branch c target => .next (if condHolds c s.st then { s with hpc := target } else advance s)
  | .jump target => .next { s with hpc := target }
  | .halt => .next s
  | .reset => .next (advance (resetDcore s))

/-- The host's turn: its next move, or nothing once its script has ended (R50, R51). -/
def hostTurn (s : State) : Result :=
  match hostNext s with
  | some op => hostMove op (tick s)
  | none => .next s

/-- `MemWrite(DCORE_BASE + off, 4, v)` (R59). -/
def memWrite (off : Nat) (v : Word) : HostOp := .write (Config.dcoreBase + off) 4 v

/-- `MemRead(DCORE_BASE + off, 4)` (R59). -/
def memRead (off : Nat) : HostOp := .read (Config.dcoreBase + off) 4

/-- `LDD Dn, w0, w1, w2, w3` (R69). -/
def opLDD (n : Fin 8) (v : DReg) : List HostOp :=
  [memWrite (0x10 * n + 0x0) v.w0, memWrite (0x10 * n + 0x4) v.w1, memWrite (0x10 * n + 0x8) v.w2, memWrite (0x10 * n + 0xC) v.w3]

/-- `LDS Sn, v` (R69). -/
def opLDS (n : Fin 8) (v : Word) : List HostOp := [memWrite (0x80 + 4 * n) v]

/-- `ISSUE <command>`, the command given as its word (R69). -/
def opISSUE (c : Word) : List HostOp := [memWrite 0xA0 c]

/-- `WAIT` (R69). -/
def opWAIT : List HostOp := [.wait]

/-- `EXEC <command>` is `ISSUE <command>; WAIT` (R69). -/
def opEXEC (c : Word) : List HostOp := opISSUE c ++ opWAIT

/-- `RDD Dn` (R69). -/
def opRDD (n : Fin 8) : List HostOp :=
  [memRead (0x10 * n + 0x0), memRead (0x10 * n + 0x4), memRead (0x10 * n + 0x8), memRead (0x10 * n + 0xC)]

/-- `RDS Sn` (R69). -/
def opRDS (n : Fin 8) : List HostOp := [memRead (0x80 + 4 * n)]

/-- `RDST` (R69). -/
def opRDST : List HostOp := [.readStatus]

/-- `CLRST` (R69). -/
def opCLRST : List HostOp := [memWrite 0xA4 0x30#32]

end Sys2Proof.Machine
end

