-- ==== Sys2Proof/Machine/Step.lean ====
section
/-! DEFINITION. One step: the completion of the in-flight command when it is due, else one move of the host (R50, R51, R72). -/

namespace Sys2Proof.Machine

/-- One step of the machine. A due word that is illegal completes with InvalidArgument (R66, R71). -/
def step (s : State) : Host.Outcome State Fault Refusal :=
  match dueWord s with
  | some c =>
    match decode c with
    | .ok i => exec i s
    | .error _ => .next (completeInvalid s)
  | none => hostTurn s

/-- `s` with a command word accepted whose completion is due at once, so that the next step runs it (R70 with `CMD_LATENCY` = 0).
DCORE fetches nothing (R27): a word comes to run by the host's write to CMD, and this is the state after such a write (assumption 6). -/
def State.withFetchWord (s : State) (nbits w : Nat) : State := latchCommand 0 (tableWord nbits w) s

end Sys2Proof.Machine
end

