-- ==== Sys2Proof/Safety.lean ====
section
/-! DEFINITION. The terms the claims use: the contract a host keeps, the invariants, the next states the rules give, and the rules'
notions in ordinary mathematics. Nothing here is part of the machine. -/

namespace Sys2Proof.Machine

/-- A move that keeps the interface contract: a 4-byte access at a multiple of 4 inside the window (R43), or no access. -/
def moveInContract : HostOp → Prop
  | .write addr bytes _ => bytes = 4 ∧ ∃ off, addr = Config.dcoreBase + off ∧ off < 256 ∧ off % 4 = 0
  | .read addr bytes => bytes = 4 ∧ ∃ off, addr = Config.dcoreBase + off ∧ off < 256 ∧ off % 4 = 0
  | _ => True

/-- Every move of the host's script keeps the contract: the safe scripts of R229. -/
def scriptInContract (s : State) : Prop := ∀ op ∈ s.script, moveInContract op

/-- The latch of a command in flight holds the word of CMD and the registers as they stand (R70: what the latch took cannot change,
because writes are ignored while BUSY = 1). -/
def latchMatches (s : State) : Prop := ∀ l, s.latch = some l → l.word = s.cmd ∧ l.regs = s.regs

/-- The command in flight is due to complete (R72). When that is, the spec leaves open: that a drawn latency counts down by the host's
moves, and that a command in flight completes at once when the script has ended, is the model's choice (assumption 2). -/
abbrev completionDue (s : State) (l : Latch) : Prop := s.latch = some l ∧ (l.wait = 0 ∨ hostDone s = true)

/-- The decimal operand a command reads from `D[n]` (R71). -/
abbrev operand (s : State) (n : Fin 8) : Dec := unpack (readD (sources s) n)

/-- That operand is a well-formed decimal: w3[15:0] = 0, w3[30:24] = 0 and w3[23:16] ≤ 28 (R23). -/
abbrev operandOk (s : State) (n : Fin 8) : Prop :=
  (readD (sources s) n).w3 &&& 0x7F00FFFF#32 = 0#32 ∧ (readD (sources s) n).w3.toNat / 2 ^ 16 % 256 ≤ 28

/-- The next state of a command that writes `D[d]` with error code `ec`, field by field (R72). -/
def afterD (d : Fin 8) (v : Dec) (ec : ErrorCode) (s : State) : State :=
  { s with
    regs := { d := s.regs.d.set d.val (pack v), s := s.regs.s }
    status := { ec := ec, cf := s.status.cf, es := s.status.es || ec != .ok, pv := s.status.pv }
    latch := none }

/-- The next state of a command that writes `S[d]` with error code `ec` (R72). -/
def afterS (d : Fin 8) (v : Word) (ec : ErrorCode) (s : State) : State :=
  { s with
    regs := { d := s.regs.d, s := s.regs.s.set d.val v }
    status := { ec := ec, cf := s.status.cf, es := s.status.es || ec != .ok, pv := s.status.pv }
    latch := none }

/-- The next state of a comparison: CF and EC = OK, no register (R36, R72). -/
def afterCF (b : Bool) (s : State) : State :=
  { s with status := { ec := .ok, cf := b, es := s.status.es, pv := s.status.pv }, latch := none }

/-- The next state of a command that fails validation: EC and ES alone, and BUSY = 0 (R71, R223). -/
def afterInvalid (s : State) : State :=
  { s with status := { ec := .invalidArgument, cf := s.status.cf, es := true, pv := s.status.pv }, latch := none }

/-- The `D` register a command writes when it passes validation (R62). -/
def destD : Instr → Option (Fin 8)
  | .dadd rd _ _ | .dsub rd _ _ | .dmul rd _ _ | .ddiv rd _ _ => regIndex rd
  | .dtrunc rd _ | .dround rd _ | .dfloor rd _ | .dneg rd _ => regIndex rd
  | .i2d rd _ | .f2d rd _ => regIndex rd
  | .dlt _ _ | .dle _ _ | .dgt _ _ | .dge _ _ | .deq _ _ | .dne _ _ | .d2i _ _ | .d2f _ _ => none

/-- The `S` register a command writes when it passes validation (R62). -/
def destS : Instr → Option (Fin 8)
  | .d2i rd _ | .d2f rd _ => regIndex rd
  | .dadd _ _ _ | .dsub _ _ _ | .dmul _ _ _ | .ddiv _ _ _ => none
  | .dlt _ _ | .dle _ _ | .dgt _ _ | .dge _ _ | .deq _ _ | .dne _ _ => none
  | .dtrunc _ _ | .dround _ _ | .dfloor _ _ | .dneg _ _ | .i2d _ _ | .f2d _ _ => none

/-- The six commands that write CF (R36). -/
def isComparison : Instr → Bool
  | .dlt _ _ | .dle _ _ | .dgt _ _ | .dge _ _ | .deq _ _ | .dne _ _ => true
  | .dadd _ _ _ | .dsub _ _ _ | .dmul _ _ _ | .ddiv _ _ _ => false
  | .dtrunc _ _ | .dround _ _ | .dfloor _ _ | .dneg _ _ | .i2d _ _ | .f2d _ _ | .d2i _ _ | .d2f _ _ => false

/-- The fields that name the decimal sources of a command (R62). -/
def decimalSources : Instr → List RegField
  | .dadd _ ra rb | .dsub _ ra rb | .dmul _ ra rb | .ddiv _ ra rb => [ra, rb]
  | .dlt ra rb | .dle ra rb | .dgt ra rb | .dge ra rb | .deq ra rb | .dne ra rb => [ra, rb]
  | .dtrunc _ ra | .dround _ ra | .dfloor _ ra | .dneg _ ra | .d2i _ ra | .d2f _ ra => [ra]
  | .i2d _ _ | .f2d _ _ => []

/-- The mask and the match of every legal word (R64, R65). -/
def legalRows : List (Word × Word) :=
  [(0xFFF888FF#32, 0x01#32), (0xFFF888FF#32, 0x02#32), (0xFFF888FF#32, 0x03#32), (0xFFF888FF#32, 0x04#32),
   (0xFFF88FFF#32, 0x10#32), (0xFFF88FFF#32, 0x11#32), (0xFFF88FFF#32, 0x12#32), (0xFFF88FFF#32, 0x13#32),
   (0xFFF88FFF#32, 0x14#32), (0xFFF88FFF#32, 0x15#32),
   (0xFFFF88FF#32, 0x20#32), (0xFFFF88FF#32, 0x21#32), (0xFFFF88FF#32, 0x22#32), (0xFFFF88FF#32, 0x23#32),
   (0xFFFF88FF#32, 0x30#32), (0xFFFF88FF#32, 0x31#32), (0xFFFF88FF#32, 0x32#32), (0xFFFF88FF#32, 0x33#32)]

/-- A legal command word (R65). -/
abbrev legalWord (c : Word) : Prop := ∃ row ∈ legalRows, c &&& row.1 = row.2

/-- The command word `(RB << 16) | (RA << 12) | (RD << 8) | OPC` of R68, as a number. -/
def commandWord (rb ra rd opc : Nat) : Word := BitVec.ofNat 32 (rb * 2 ^ 16 + ra * 2 ^ 12 + rd * 2 ^ 8 + opc)

/-- The rational number a decimal record denotes (R2). -/
def decValue (v : Dec) : ℚ := (if v.neg then -1 else 1) * (v.m : ℚ) / 10 ^ v.s

/-- Both operands can be raised to the larger of the two scales within 96 bits, so that alignment rounds nothing (R111). -/
abbrev alignsExactly (a b : Dec) : Prop :=
  a.m * 10 ^ (max a.s b.s - a.s) ≤ 2 ^ 96 - 1 ∧ b.m * 10 ^ (max a.s b.s - b.s) ≤ 2 ^ 96 - 1

/-- The mantissa that `k` turns of banker's rounding leave (R112). -/
def roundedBy (k m : Nat) : Nat := divTenRound^[k] m

/-- The sum the rules give (R130), with R135's consequence written in: a carry at a scale above 0 always fits after one rounding. -/
def sumByRule (a b : Dec) : Dec × ErrorCode :=
  match align ⟨a.m, a.s⟩ ⟨b.m, b.s⟩ with
  | (⟨ma, s⟩, ⟨mb, _⟩) =>
    if a.neg = b.neg then
      if ma + mb ≤ 2 ^ 96 - 1 then (⟨ma + mb, s, a.neg⟩, .ok)
      else if s = 0 then (⟨0, 0, false⟩, if a.neg then .overflowSmall else .overflowLarge)
      else (⟨roundedBy 1 (ma + mb), s - 1, a.neg⟩, .ok)
    else if mb < ma then (⟨ma - mb, s, a.neg⟩, .ok)
    else if ma < mb then (⟨mb - ma, s, b.neg⟩, .ok)
    else (⟨0, s, false⟩, .ok)

/-- Negative for ordering: the sign bit is set and the number is no zero (R150). -/
abbrev orderNegative (v : Dec) : Prop := v.m ≠ 0 ∧ v.neg = true

/-- The two mantissas that the order compares: both operands normalized, then aligned (R150, R109, R110). -/
abbrev orderMantissas (a b : Dec) : Nat × Nat :=
  ((align (normalize a.m a.s) (normalize b.m b.s)).1.m, (align (normalize a.m a.s) (normalize b.m b.s)).2.m)

/-- `a` stands below `b` in R150's order: not two zeros; a negative below one that is not; else by the mantissas, inverted for two
negatives. -/
abbrev belowByRule (a b : Dec) : Prop :=
  ¬ (a.m = 0 ∧ b.m = 0) ∧
    ((orderNegative a ∧ ¬ orderNegative b) ∨
     (¬ orderNegative a ∧ ¬ orderNegative b ∧ (orderMantissas a b).1 < (orderMantissas a b).2) ∨
     (orderNegative a ∧ orderNegative b ∧ (orderMantissas a b).2 < (orderMantissas a b).1))

/-- `a` and `b` stand level in R150's order: two zeros, or one sign and equal mantissas. -/
abbrev levelByRule (a b : Dec) : Prop :=
  (a.m = 0 ∧ b.m = 0) ∨ ((orderNegative a ↔ orderNegative b) ∧ (orderMantissas a b).1 = (orderMantissas a b).2)

/-- No further digit of `A / B` is appended after `i` digits: the remainder is 0, or the quotient or the remainder would not fit
when multiplied by ten, or the appended digit would not fit (R133, D27). -/
abbrev divisionStops (A B i : Nat) : Prop :=
  A * 10 ^ i % B = 0 ∨ 10 * (A * 10 ^ i / B) > 2 ^ 96 - 1 ∨ 10 * (A * 10 ^ i % B) > 2 ^ 96 - 1 ∨
    10 * (A * 10 ^ i / B) + 10 * (A * 10 ^ i % B) / B > 2 ^ 96 - 1

/-- `n` is an integer nearest `x`, and the even one when `x` lies midway (R12). -/
def nearestEven (n : Nat) (x : ℚ) : Prop := |x - n| ≤ 1 / 2 ∧ (|x - n| = 1 / 2 → n % 2 = 0)

/-- The magnitude a finite binary32 pattern denotes (R192). -/
def absVal32Q (x : Word) : ℚ :=
  if x.toNat / 2 ^ 23 % 256 = 0 then ((x.toNat % 2 ^ 23 : Nat) : ℚ) * (2 : ℚ) ^ (-149 : ℤ)
  else ((2 ^ 23 + x.toNat % 2 ^ 23 : Nat) : ℚ) * (2 : ℚ) ^ ((x.toNat / 2 ^ 23 % 256 : ℤ) - 150)

/-- `y` is the non-negative `x` rounded to a float of `prec` significant bits and least exponent `emin`, nearest with ties to even: the
exponent is that of `x` itself, so that the rounding unit is the one of the binade in which `x` lies (R11; assumption 9). -/
def roundsTo (prec : Nat) (emin : ℤ) (x y : ℚ) : Prop :=
  ∃ (sig : Nat) (e : ℤ), y = (sig : ℚ) * (2 : ℚ) ^ e ∧ emin ≤ e ∧ x * (2 : ℚ) ^ (-e) < 2 ^ prec ∧
    (e = emin ∨ 2 ^ (prec - 1) ≤ x * (2 : ℚ) ^ (-e)) ∧ nearestEven sig (x * (2 : ℚ) ^ (-e))

end Sys2Proof.Machine
end

