-- ==== Sys2Proof/Certificates/Slice0/Obligations.lean ====
section
/-! DEFINITION. The statements for the provers, from the numbered rules of spec/. -/

open Sys2Proof Sys2Proof.Machine

/-! ### Encoding -/

/-- Every well-formed command comes back from its word, with every operand at every value its fields admit (R60 to R65, R68). -/
def Obligations.DecodeEncodeRoundTrip : Prop := ∀ i : Instr, i.WellFormed = true → decode (encode i) = .ok i

/-- A word the decoder accepts gives a well-formed command and is that command's only word (R60, R61, R65). -/
def Obligations.DecodedWordIsItsEncoding : Prop :=
  ∀ (c : Word) (i : Instr), decode c = .ok i → i.WellFormed = true ∧ encode i = c

/-- The decoder accepts exactly the words of R65's masks and matches. -/
def Obligations.DecoderAcceptsExactlyLegalWords : Prop := ∀ c : Word, (∃ i, decode c = .ok i) ↔ legalWord c

/-- Words written out in 95_test_vectors.md §3.1 and R68, one for each command, decode to the command they stand for. -/
def Obligations.SpecWordsDecode : Prop :=
  decode 0x00010201#32 = .ok (.dadd 2 0 1) ∧ decode 0x00010202#32 = .ok (.dsub 2 0 1) ∧
  decode 0x00056703#32 = .ok (.dmul 7 6 5) ∧ decode 0x00000004#32 = .ok (.ddiv 0 0 0) ∧
  decode 0x00043010#32 = .ok (.dlt 3 4) ∧ decode 0x00010011#32 = .ok (.dle 0 1) ∧
  decode 0x00007012#32 = .ok (.dgt 7 0) ∧ decode 0x00021013#32 = .ok (.dge 1 2) ∧
  decode 0x00010014#32 = .ok (.deq 0 1) ∧ decode 0x00055015#32 = .ok (.dne 5 5) ∧
  decode 0x00000120#32 = .ok (.dtrunc 1 0) ∧ decode 0x00000221#32 = .ok (.dround 2 0) ∧
  decode 0x00001322#32 = .ok (.dfloor 3 1) ∧ decode 0x00007723#32 = .ok (.dneg 7 7) ∧
  decode 0x00000130#32 = .ok (.i2d 1 0) ∧ decode 0x00003331#32 = .ok (.f2d 3 3) ∧
  decode 0x00001032#32 = .ok (.d2i 0 1) ∧ decode 0x00006533#32 = .ok (.d2f 5 6)

/-! ### The step, reset and the whole machine -/

/-- A step whose completion is due runs the decoded command; an undecodable word completes with InvalidArgument (R71, R72); any other step
is the host's turn (R51). The model's choice, and no rule of the spec: when a completion is due, that a script which has ended makes it
due (assumption 2, DESIGN CHOICE), and the whole of the last clause, that a word placed by `withFetchWord` runs in the very next step
(assumption 6, DESIGN CHOICE). -/
def Obligations.StepRunsDueCommand : Prop :=
  (∀ s l i, completionDue s l → decode l.word = .ok i → step s = exec i s) ∧
  (∀ s l e, completionDue s l → decode l.word = .error e → step s = .next (afterInvalid s)) ∧
  (∀ s, (∀ l, ¬ completionDue s l) → step s = hostTurn s) ∧
  (∀ (s : State) (nbits w : Nat) (i : Instr), decodeTableWord nbits w = some i →
    step (s.withFetchWord nbits w) = exec i (s.withFetchWord nbits w))

/-- A due command word that R65 does not call legal completes with EC = InvalidArgument, ES set and nothing else (R66, R71). -/
def Obligations.IllegalWordCompletesInvalid : Prop :=
  ∀ s l, completionDue s l → ¬ legalWord l.word → step s = .next (afterInvalid s)

/-- What reset leaves (R31): all `D` words and `S` registers 0, STATUS 0, CMD 0, the latch empty. -/
def Obligations.ResetHoldsSpecValues : Prop :=
  (∀ n : Fin 8, readD State.reset.regs n = ⟨0#32, 0#32, 0#32, 0#32⟩ ∧ readS State.reset.regs n = 0#32) ∧
  State.reset.status = ⟨.ok, false, false, false⟩ ∧ windowRead 0xA4 State.reset = 0#32 ∧
  State.reset.cmd = 0#32 ∧ State.reset.latch = none ∧ State.reset.busy = false

/-- The invariants below hold at reset. The first holds because the latch is empty (R31). The second is the model's choice and no rule of
the spec: it holds because the host's script is empty at reset (assumption 5, DESIGN CHOICE, unsafe). -/
def Obligations.ResetMeetsInvariants : Prop := latchMatches State.reset ∧ scriptInContract State.reset

/-- Every step keeps the latch equal to CMD and to the registers as they stand (R70). -/
def Obligations.StepKeepsLatchMatchingRegisters : Prop :=
  ∀ s t, latchMatches s → step s = .next t → latchMatches t

/-- A machine whose host keeps the contract never stops: every step has a next state, and the contract is kept (R43, R220, R229). -/
def Obligations.ContractScriptNeverStops : Prop :=
  ∀ s, scriptInContract s → ∃ t, step s = .next t ∧ scriptInContract t

/-- Every decimal value a command writes is well formed (R33). -/
def Obligations.ProducedDecimalsAreWellFormed : Prop :=
  ∀ (i : Instr) (s t : State), exec i s = .next t →
    ∀ n : Fin 8, readD t.regs n = readD s.regs n ∨
      ((readD t.regs n).w3 &&& 0x7F00FFFF#32 = 0#32 ∧ (readD t.regs n).w3.toNat / 2 ^ 16 % 256 ≤ 28)

/-- No command traps: every command, and every due word, reaches its completion with BUSY = 0 (R220, R72). -/
def Obligations.EveryDueCommandCompletes : Prop :=
  (∀ (i : Instr) (s : State), ∃ t, exec i s = .next t ∧ t.busy = false) ∧
  (∀ s l, completionDue s l → ∃ t, step s = .next t ∧ t.busy = false)

/-- Every accepted command completes after finitely many steps, whatever its latency (R258). The bound `wait + 1` is the model's choice:
the latency left goes down by one on every host move, and a command completes at once after the script's end (assumption 2, DESIGN
CHOICE). -/
def Obligations.AcceptedCommandCompletesInTime : Prop :=
  ∀ (s : State) (l : Latch), s.latch = some l → scriptInContract s →
    ∃ k, k ≤ l.wait + 1 ∧ ∃ t : State, Sys2Proof.core.run k s = .next t ∧ t.busy = false

/-- The frame of all eighteen commands: a completion changes its one destination register, CF if it is a comparison, EC, ES and BUSY,
and nothing else; ES only ever becomes 1, and only by a code that is not OK (R36, R37, R71, R72, R222). -/
def Obligations.CommandFrame : Prop :=
  ∀ (i : Instr) (s t : State), exec i s = .next t →
    (∀ n : Fin 8, destD i ≠ some n → readD t.regs n = readD s.regs n) ∧
    (∀ n : Fin 8, destS i ≠ some n → readS t.regs n = readS s.regs n) ∧
    (isComparison i = false → t.status.cf = s.status.cf) ∧
    t.status.es = (s.status.es || t.status.ec != .ok) ∧ t.status.pv = s.status.pv ∧
    t.cmd = s.cmd ∧ t.latch = none ∧ t.script = s.script ∧ t.hpc = s.hpc ∧ t.st = s.st ∧
    t.replies = s.replies ∧ t.accepted = s.accepted

/-- A pattern is well formed exactly when R23 says so, and a command with an ill-formed decimal source completes with InvalidArgument
and changes nothing else (R23). -/
def Obligations.IllFormedOperandIsInvalid : Prop :=
  (∀ r : DReg, wellFormedD r = true ↔ (r.w3 &&& 0x7F00FFFF#32 = 0#32 ∧ r.w3.toNat / 2 ^ 16 % 256 ≤ 28)) ∧
  (∀ (i : Instr) (s : State) (f : RegField) (n : Fin 8), i.WellFormed = true → f ∈ decimalSources i →
    regIndex f = some n → ¬ operandOk s n → exec i s = .next (afterInvalid s))

/-- `exec` of a command with a used field of 8..15, which names no register, completes with InvalidArgument and changes nothing else. R61
and R66 say this of the word that carries the field; no step applies `exec` to such a command, because the decoder refuses the word, so
that `exec` answers as the word does is the model's choice (assumption 11, DEDUCED). -/
def Obligations.UnnamedRegisterIsInvalid : Prop :=
  ∀ (i : Instr) (s : State), i.WellFormed = false → exec i s = .next (afterInvalid s)

/-- A command's completion does not depend on the latency it had (R258). -/
def Obligations.CompletionIgnoresLatency : Prop :=
  ∀ (i : Instr) (s : State) (l : Latch) (w : Nat),
    exec i { s with latch := some l } = exec i { s with latch := some { l with wait := w } }

/-- EC and CF are written only by a completion or by reset; and while BUSY = 1 no host move changes a register, CMD or what the latch
took (R35, R36, R44, R48). -/
def Obligations.HostMovesKeepResults : Prop :=
  ∀ s t : State, (∀ l, ¬ completionDue s l) → hostNext s ≠ some .reset → step s = .next t →
    t.status.ec = s.status.ec ∧ t.status.cf = s.status.cf ∧
    (s.busy = true → t.regs = s.regs ∧ t.cmd = s.cmd ∧
      t.latch.map (fun l => (l.word, l.regs)) = s.latch.map (fun l => (l.word, l.regs)))

/-- ES and PV, once set, stay set until a host write to STATUS or reset (R37). -/
def Obligations.StickyBitsHold : Prop :=
  ∀ s t : State, step s = .next t → hostNext s ≠ some .reset → (∀ v, hostNext s ≠ some (memWrite 0xA4 v)) →
    (s.status.es = true → t.status.es = true) ∧ (s.status.pv = true → t.status.pv = true)

/-! ### Arithmetic -/

/-- DADD: its word, and its result on any two well-formed operands (R130, R135). -/
def Obligations.DaddFollowsRule : Prop :=
  ∀ (d a b : Fin 8) (s : State), operandOk s a → operandOk s b →
    encode (.dadd (regField d) (regField a) (regField b)) = commandWord b a d 0x01 ∧
    exec (.dadd (regField d) (regField a) (regField b)) s =
      .next (afterD d (sumByRule (operand s a) (operand s b)).1 (sumByRule (operand s a) (operand s b)).2 s)

/-- DSUB: its word, and DADD's rule with the sign of the second operand flipped (R131). -/
def Obligations.DsubAddsNegated : Prop :=
  ∀ (d a b : Fin 8) (s : State), operandOk s a → operandOk s b →
    encode (.dsub (regField d) (regField a) (regField b)) = commandWord b a d 0x02 ∧
    exec (.dsub (regField d) (regField a) (regField b)) s =
      .next (afterD d
        (sumByRule (operand s a) { operand s b with neg := !(operand s b).neg }).1
        (sumByRule (operand s a) { operand s b with neg := !(operand s b).neg }).2 s)

/-- Where alignment rounds nothing and no carry occurs, DADD gives the exact sum and DSUB the exact difference at the larger scale,
and a zero result is negative only when both addends are (R2, R130, R131). -/
def Obligations.SumAndDifferenceAreExact : Prop :=
  ∀ (d a b : Fin 8) (s : State) (x y : Dec), operandOk s a → operandOk s b → operand s a = x → operand s b = y →
    alignsExactly x y →
    ((x.neg = y.neg → x.m * 10 ^ (max x.s y.s - x.s) + y.m * 10 ^ (max x.s y.s - y.s) ≤ 2 ^ 96 - 1) →
      ∃ r : Dec, exec (.dadd (regField d) (regField a) (regField b)) s = .next (afterD d r .ok s) ∧
        r.m ≤ 2 ^ 96 - 1 ∧ r.s = max x.s y.s ∧ decValue r = decValue x + decValue y ∧
        (r.m = 0 → r.neg = (x.neg && y.neg))) ∧
    ((x.neg ≠ y.neg → x.m * 10 ^ (max x.s y.s - x.s) + y.m * 10 ^ (max x.s y.s - y.s) ≤ 2 ^ 96 - 1) →
      ∃ r : Dec, exec (.dsub (regField d) (regField a) (regField b)) s = .next (afterD d r .ok s) ∧
        r.m ≤ 2 ^ 96 - 1 ∧ r.s = max x.s y.s ∧ decValue r = decValue x - decValue y ∧
        (r.m = 0 → r.neg = (x.neg && !y.neg)))

/-- DMUL: its word; the product is rounded digit by digit exactly as long as it does not fit or the scale exceeds 28, and what is left
is the result or an overflow by its sign; a zero result has scale 0 (R132). -/
def Obligations.DmulFollowsReduction : Prop :=
  ∀ (d a b : Fin 8) (s : State) (x y : Dec), operandOk s a → operandOk s b → operand s a = x → operand s b = y →
    encode (.dmul (regField d) (regField a) (regField b)) = commandWord b a d 0x03 ∧
    ∃ k, k ≤ x.s + y.s ∧
      (∀ j, j < k → roundedBy j (x.m * y.m) > 2 ^ 96 - 1 ∨ x.s + y.s - j > 28) ∧
      (k = x.s + y.s ∨ (roundedBy k (x.m * y.m) ≤ 2 ^ 96 - 1 ∧ x.s + y.s - k ≤ 28)) ∧
      exec (.dmul (regField d) (regField a) (regField b)) s =
        .next (if roundedBy k (x.m * y.m) ≤ 2 ^ 96 - 1 then
            afterD d ⟨roundedBy k (x.m * y.m), if roundedBy k (x.m * y.m) = 0 then 0 else x.s + y.s - k, x.neg ^^ y.neg⟩ .ok s
          else afterD d ⟨0, 0, false⟩ (if x.neg ^^ y.neg then .overflowSmall else .overflowLarge) s)

/-- Where the product fits at the sum of the scales, DMUL gives it exactly (R2, R132). -/
def Obligations.ProductIsExact : Prop :=
  ∀ (d a b : Fin 8) (s : State) (x y : Dec), operandOk s a → operandOk s b → operand s a = x → operand s b = y →
    x.m * y.m ≤ 2 ^ 96 - 1 → x.s + y.s ≤ 28 →
    ∃ r : Dec, exec (.dmul (regField d) (regField a) (regField b)) s = .next (afterD d r .ok s) ∧
      r.m = x.m * y.m ∧ r.s = (if x.m * y.m = 0 then 0 else x.s + y.s) ∧ r.neg = (x.neg ^^ y.neg) ∧
      decValue r = decValue x * decValue y

/-- DDIV: its word; a zero divisor; the first loop, which raises the dividend as far as it fits and then lowers the divisor; and the
fractional digits, appended one by one until the first stop (R133). -/
def Obligations.DdivFollowsLongDivision : Prop :=
  ∀ (d a b : Fin 8) (s : State) (x y : Dec), operandOk s a → operandOk s b → operand s a = x → operand s b = y →
    encode (.ddiv (regField d) (regField a) (regField b)) = commandWord b a d 0x04 ∧
    (y.m = 0 → exec (.ddiv (regField d) (regField a) (regField b)) s = .next (afterD d ⟨0, 0, false⟩ .divisionByZero s)) ∧
    (y.m ≠ 0 → ∃ j A B, j ≤ y.s - x.s ∧ A = x.m * 10 ^ j ∧ A ≤ 2 ^ 96 - 1 ∧ B = roundedBy (y.s - x.s - j) y.m ∧
      (j < y.s - x.s → 10 * A > 2 ^ 96 - 1) ∧
      (B = 0 → exec (.ddiv (regField d) (regField a) (regField b)) s = .next (afterD d ⟨0, 0, false⟩ .divisionByZero s)) ∧
      (B ≠ 0 → ∃ k, x.s - y.s + k ≤ 28 ∧ (∀ i, i < k → ¬ divisionStops A B i) ∧
        (x.s - y.s + k = 28 ∨ divisionStops A B k) ∧
        exec (.ddiv (regField d) (regField a) (regField b)) s =
          .next (afterD d ⟨A * 10 ^ k / B, x.s - y.s + k, x.neg ^^ y.neg⟩ .ok s)))

/-- DDIV with a divisor of no larger scale and not zero gives a quotient that is the exact one truncated toward zero at its last
digit, and it fits in 96 bits (R133, R136). -/
def Obligations.DdivTruncatesQuotient : Prop :=
  ∀ (d a b : Fin 8) (s : State) (x y : Dec), operandOk s a → operandOk s b → operand s a = x → operand s b = y →
    y.m ≠ 0 → y.s ≤ x.s →
    ∃ r : Dec, exec (.ddiv (regField d) (regField a) (regField b)) s = .next (afterD d r .ok s) ∧
      r.m ≤ 2 ^ 96 - 1 ∧ x.s - y.s ≤ r.s ∧ r.s ≤ 28 ∧ r.neg = (x.neg ^^ y.neg) ∧
      |decValue r| ≤ |decValue x / decValue y| ∧ |decValue x / decValue y| < |decValue r| + 1 / 10 ^ r.s

/-- DDIV never reports Overflow; on well-formed operands its only failing code is DivisionByZero; and the mantissa it computes, before it
is packed, never exceeds `2^96 - 1` (R136). -/
def Obligations.DdivNeverOverflows : Prop :=
  (∀ (rd ra rb : RegField) (s t : State), exec (.ddiv rd ra rb) s = .next t →
    t.status.ec ≠ .overflowLarge ∧ t.status.ec ≠ .overflowSmall) ∧
  (∀ (d a b : Fin 8) (s t : State), operandOk s a → operandOk s b →
    exec (.ddiv (regField d) (regField a) (regField b)) s = .next t →
    t.status.ec = .ok ∨ t.status.ec = .divisionByZero) ∧
  (∀ (d a b : Fin 8) (s : State), operandOk s a → operandOk s b →
    exec (.ddiv (regField d) (regField a) (regField b)) s =
      .next (afterD d (semDdiv (operand s a) (operand s b)).1 (semDdiv (operand s a) (operand s b)).2 s) ∧
    (semDdiv (operand s a) (operand s b)).1.m ≤ 2 ^ 96 - 1)

/-- The restoring binary long division of R133, with its 97-bit remainder register, gives the exact quotient and remainder. -/
def Obligations.RestoringDivisionIsExact : Prop :=
  ∀ dividend divisor : Nat, dividend < 2 ^ 96 → 0 < divisor → divisor < 2 ^ 96 →
    restoringDivide dividend divisor = (dividend / divisor, dividend % divisor)

/-! ### Comparison -/

/-- DLT, DLE, DGT, DGE: their words, and CF by R150's order, spelled out by zeros, signs and the aligned normalized mantissas on every
pair of well-formed operands, with EC = OK and no register written (R150 to R154). -/
def Obligations.RelationalCommandsFollowOrd : Prop :=
  ∀ (a b : Fin 8) (s : State) (x y : Dec), operandOk s a → operandOk s b → operand s a = x → operand s b = y →
    (encode (.dlt (regField a) (regField b)) = commandWord b a 0 0x10 ∧
      exec (.dlt (regField a) (regField b)) s = .next (afterCF (decide (belowByRule x y)) s)) ∧
    (encode (.dle (regField a) (regField b)) = commandWord b a 0 0x11 ∧
      exec (.dle (regField a) (regField b)) s = .next (afterCF (decide (belowByRule x y ∨ levelByRule x y)) s)) ∧
    (encode (.dgt (regField a) (regField b)) = commandWord b a 0 0x12 ∧
      exec (.dgt (regField a) (regField b)) s = .next (afterCF (decide (¬ (belowByRule x y ∨ levelByRule x y))) s)) ∧
    (encode (.dge (regField a) (regField b)) = commandWord b a 0 0x13 ∧
      exec (.dge (regField a) (regField b)) s = .next (afterCF (decide (¬ belowByRule x y)) s)) ∧
    (ord x y = .lt ↔ belowByRule x y) ∧ (ord x y = .eq ↔ levelByRule x y)

/-- DEQ, DNE: their words, and CF by equal signs and equal mantissas after alignment (R155 to R157). -/
def Obligations.EqualityCommandsFollowRule : Prop :=
  ∀ (a b : Fin 8) (s : State) (x y : Dec), operandOk s a → operandOk s b → operand s a = x → operand s b = y →
    (encode (.deq (regField a) (regField b)) = commandWord b a 0 0x14 ∧
      exec (.deq (regField a) (regField b)) s = .next (afterCF
        (decide (x.neg = y.neg ∧ (align ⟨x.m, x.s⟩ ⟨y.m, y.s⟩).1.m = (align ⟨x.m, x.s⟩ ⟨y.m, y.s⟩).2.m)) s)) ∧
    (encode (.dne (regField a) (regField b)) = commandWord b a 0 0x15 ∧
      exec (.dne (regField a) (regField b)) s = .next (afterCF
        (!decide (x.neg = y.neg ∧ (align ⟨x.m, x.s⟩ ⟨y.m, y.s⟩).1.m = (align ⟨x.m, x.s⟩ ⟨y.m, y.s⟩).2.m)) s))

/-- Where alignment rounds nothing, the relational commands order the two numbers as numbers, and DEQ holds exactly for equal numbers
of one sign bit (R2, R150, R155). -/
def Obligations.ComparisonsOrderNumbers : Prop :=
  ∀ (a b : Fin 8) (s : State) (x y : Dec), operandOk s a → operandOk s b → operand s a = x → operand s b = y →
    alignsExactly x y →
    exec (.dlt (regField a) (regField b)) s = .next (afterCF (decide (decValue x < decValue y)) s) ∧
    exec (.dle (regField a) (regField b)) s = .next (afterCF (decide (decValue x ≤ decValue y)) s) ∧
    exec (.dgt (regField a) (regField b)) s = .next (afterCF (decide (decValue y < decValue x)) s) ∧
    exec (.dge (regField a) (regField b)) s = .next (afterCF (decide (decValue y ≤ decValue x)) s) ∧
    exec (.deq (regField a) (regField b)) s = .next (afterCF (decide (x.neg = y.neg ∧ decValue x = decValue y)) s) ∧
    exec (.dne (regField a) (regField b)) s = .next (afterCF (decide (¬ (x.neg = y.neg ∧ decValue x = decValue y))) s)

/-- Two zeros of different signs, at any scales: DLE and DGE give 1, DLT and DGT 0, DEQ 0 and DNE 1 (R158). -/
def Obligations.ZeroSignAsymmetry : Prop :=
  ∀ (a b : Fin 8) (s : State), operandOk s a → operandOk s b → (operand s a).m = 0 → (operand s b).m = 0 →
    (operand s a).neg ≠ (operand s b).neg →
    exec (.dle (regField a) (regField b)) s = .next (afterCF true s) ∧
    exec (.dge (regField a) (regField b)) s = .next (afterCF true s) ∧
    exec (.dlt (regField a) (regField b)) s = .next (afterCF false s) ∧
    exec (.dgt (regField a) (regField b)) s = .next (afterCF false s) ∧
    exec (.deq (regField a) (regField b)) s = .next (afterCF false s) ∧
    exec (.dne (regField a) (regField b)) s = .next (afterCF true s)

/-- R159's pair: 7922816251426433759354395034 and 7922816251426433759354395033.5 compare equal under all six commands. -/
def Obligations.AlignmentCanEquateDistinct : Prop :=
  ∀ (a b : Fin 8) (s : State), readD (sources s) a = pack ⟨7922816251426433759354395034, 0, false⟩ →
    readD (sources s) b = pack ⟨2 ^ 96 - 1, 1, false⟩ →
    exec (.dlt (regField a) (regField b)) s = .next (afterCF false s) ∧
    exec (.dgt (regField a) (regField b)) s = .next (afterCF false s) ∧
    exec (.dle (regField a) (regField b)) s = .next (afterCF true s) ∧
    exec (.dge (regField a) (regField b)) s = .next (afterCF true s) ∧
    exec (.deq (regField a) (regField b)) s = .next (afterCF true s) ∧
    exec (.dne (regField a) (regField b)) s = .next (afterCF false s)

/-- Exchanging the operands turns DLT into DGT and DLE into DGE and leaves DEQ and DNE, on every operand, ill-formed ones included
(R150, R155). -/
def Obligations.ComparisonsExchange : Prop :=
  ∀ (ra rb : RegField) (s : State),
    exec (.dlt ra rb) s = exec (.dgt rb ra) s ∧ exec (.dle ra rb) s = exec (.dge rb ra) s ∧
    exec (.deq ra rb) s = exec (.deq rb ra) s ∧ exec (.dne ra rb) s = exec (.dne rb ra) s

/-! ### Rounding and shaping -/

/-- DTRUNC: its word, and the integer part with the sign kept, at scale 0 (R170, R171). -/
def Obligations.DtruncDropsFraction : Prop :=
  ∀ (d a : Fin 8) (s : State) (x : Dec), operandOk s a → operand s a = x →
    encode (.dtrunc (regField d) (regField a)) = commandWord 0 a d 0x20 ∧
    exec (.dtrunc (regField d) (regField a)) s = .next (afterD d ⟨x.m / 10 ^ x.s, 0, x.neg⟩ .ok s)

/-- DROUND: its word; the first fractional digit alone decides; the result is the number rounded half away from zero, sign kept
(R172). -/
def Obligations.DroundRoundsHalfAway : Prop :=
  ∀ (d a : Fin 8) (s : State) (x : Dec), operandOk s a → operand s a = x →
    encode (.dround (regField d) (regField a)) = commandWord 0 a d 0x21 ∧
    ∃ r, exec (.dround (regField d) (regField a)) s = .next (afterD d ⟨r, 0, x.neg⟩ .ok s) ∧
      r = x.m / 10 ^ x.s + (if x.s > 0 ∧ x.m / 10 ^ (x.s - 1) % 10 ≥ 5 then 1 else 0) ∧
      r = (2 * x.m + 10 ^ x.s) / (2 * 10 ^ x.s) ∧ r ≤ 2 ^ 96 - 1

/-- DFLOOR: its word, and the number rounded toward negative infinity with the sign bit kept (R173). -/
def Obligations.DfloorRoundsDown : Prop :=
  ∀ (d a : Fin 8) (s : State) (x : Dec), operandOk s a → operand s a = x →
    encode (.dfloor (regField d) (regField a)) = commandWord 0 a d 0x22 ∧
    ∃ r, exec (.dfloor (regField d) (regField a)) s = .next (afterD d ⟨r, 0, x.neg⟩ .ok s) ∧
      r ≤ 2 ^ 96 - 1 ∧ decValue ⟨r, 0, x.neg⟩ = (⌊decValue x⌋ : ℚ)

/-- DNEG: its word; the operand read from the register's four words as R22 gives it, mantissa, scale and sign; and the destination takes
the source's pattern with bit 31 of w3 flipped and no other bit changed, which fixes how R21 packs every well-formed value (R21, R22,
R174). -/
def Obligations.DnegFlipsSignBit : Prop :=
  ∀ (d a : Fin 8) (s : State) (r : DReg), operandOk s a → readD (sources s) a = r →
    encode (.dneg (regField d) (regField a)) = commandWord 0 a d 0x23 ∧
    operand s a = ⟨r.w0.toNat + r.w1.toNat * 2 ^ 32 + r.w2.toNat * 2 ^ 64, r.w3.toNat / 2 ^ 16 % 256, r.w3.getLsbD 31⟩ ∧
    exec (.dneg (regField d) (regField a)) s =
      .next (afterD d ⟨(operand s a).m, (operand s a).s, !(operand s a).neg⟩ .ok s) ∧
    readD (afterD d ⟨(operand s a).m, (operand s a).s, !(operand s a).neg⟩ .ok s).regs d =
      ⟨r.w0, r.w1, r.w2, r.w3 ^^^ 0x80000000#32⟩

/-- Two negations restore every bit, and truncating a rounded value returns it (R175, items 3 and 4). -/
def Obligations.ShapingProperties : Prop :=
  ∀ (d a e : Fin 8) (s : State), operandOk s a →
    (∃ t u, exec (.dneg (regField d) (regField a)) s = .next t ∧ exec (.dneg (regField e) (regField d)) t = .next u ∧
      readD u.regs e = readD (sources s) a) ∧
    (∃ t u, exec (.dround (regField d) (regField a)) s = .next t ∧ exec (.dtrunc (regField e) (regField d)) t = .next u ∧
      readD u.regs e = readD t.regs d)

/-! ### Conversions -/

/-- I2D: its word, and the decimal of scale 0 that denotes the two's-complement integer, never a negative zero (R190). -/
def Obligations.I2dDenotesInteger : Prop :=
  ∀ (d a : Fin 8) (s : State) (x : Word), readS (sources s) a = x →
    encode (.i2d (regField d) (regField a)) = commandWord 0 a d 0x30 ∧
    ∃ r : Dec, exec (.i2d (regField d) (regField a)) s = .next (afterD d r .ok s) ∧
      r.s = 0 ∧ r.m ≤ 2 ^ 31 ∧ decValue r = (x.toInt : ℚ) ∧ (r.neg = true ↔ x.toInt < 0)

/-- D2I: its word, and the truncated value with its two range tests in their order (R191). -/
def Obligations.D2iTruncatesInRange : Prop :=
  ∀ (d a : Fin 8) (s : State) (x : Dec), operandOk s a → operand s a = x →
    encode (.d2i (regField d) (regField a)) = commandWord 0 a d 0x32 ∧
    exec (.d2i (regField d) (regField a)) s =
      .next (if x.m / 10 ^ x.s > 2 ^ 31 then afterS d 0#32 .invalidArgument s
        else if x.m / 10 ^ x.s = 2 ^ 31 ∧ x.neg = false then afterS d 0#32 .overflowLarge s
        else afterS d (BitVec.ofInt 32 (if x.neg then -((x.m / 10 ^ x.s : Nat) : Int) else ((x.m / 10 ^ x.s : Nat) : Int))) .ok s)

/-- D2I after I2D gives the integer back with EC = OK (R190, R191). -/
def Obligations.D2iInvertsI2d : Prop :=
  ∀ (d a n : Fin 8) (s : State), ∃ t u,
    exec (.i2d (regField d) (regField a)) s = .next t ∧ exec (.d2i (regField n) (regField d)) t = .next u ∧
      readS u.regs n = readS (sources s) a ∧ u.status.ec = .ok

/-- F2D of a NaN or an infinity, of a zero, and of a non-zero magnitude below `10^-28` (R192, R193). -/
def Obligations.F2dSpecialInputs : Prop :=
  ∀ (d a : Fin 8) (s : State) (x : Word), readS (sources s) a = x →
    (x.toNat / 2 ^ 23 % 256 = 255 →
      exec (.f2d (regField d) (regField a)) s = .next (afterD d ⟨0, 0, false⟩ .overflowLarge s)) ∧
    (x.toNat % 2 ^ 31 = 0 →
      exec (.f2d (regField d) (regField a)) s = .next (afterD d ⟨0, 0, false⟩ .ok s)) ∧
    (0 < absVal32Q x → absVal32Q x < 1 / 10 ^ 28 →
      exec (.f2d (regField d) (regField a)) s = .next (afterD d ⟨0, 0, false⟩ .overflowSmall s))

/-- F2D of every other pattern: its word; seven digits by one exact rounding half to even, fewer where the scale stops at 28, the range
test, and the trailing zeros stripped (R193, R194). -/
def Obligations.F2dKeepsSevenDigits : Prop :=
  ∀ (d a : Fin 8) (s : State) (x : Word), readS (sources s) a = x → x.toNat / 2 ^ 23 % 256 ≠ 255 → 1 / 10 ^ 28 ≤ absVal32Q x →
    encode (.f2d (regField d) (regField a)) = commandWord 0 a d 0x31 ∧
    ∃ (e : ℤ) (N M : Nat), (10 : ℚ) ^ 6 ≤ absVal32Q x * (10 : ℚ) ^ e ∧ absVal32Q x * (10 : ℚ) ^ e < (10 : ℚ) ^ 7 ∧
      nearestEven N (absVal32Q x * (10 : ℚ) ^ (min e 28)) ∧ M = N * 10 ^ (-e).toNat ∧
      exec (.f2d (regField d) (regField a)) s =
        .next (if M ≤ 2 ^ 96 - 1 then
            afterD d ⟨(normalize M (min e 28).toNat).m, (normalize M (min e 28).toNat).s, x.getLsbD 31⟩ .ok s
          else afterD d ⟨0, 0, false⟩ .invalidArgument s)

/-- D2F: its word; the mantissa words summed in binary64 in order, the quotient by the rounded power of ten in binary64, and its
narrowing to binary32, each rounded to nearest even; the sign bit is the operand's (R196). The float formats and the rounding are IEEE 754's
(R11), which the spec supplies from general knowledge (assumption 9, PRESUMED). -/
def Obligations.D2fRoundsAtEveryStep : Prop :=
  ∀ (d a : Fin 8) (s : State) (x : Dec), operandOk s a → operand s a = x →
    encode (.d2f (regField d) (regField a)) = commandWord 0 a d 0x33 ∧
    ∃ (w : Word) (a1 a2 p q : ℚ), exec (.d2f (regField d) (regField a)) s = .next (afterS d w .ok s) ∧
      w.getLsbD 31 = x.neg ∧ w.toNat / 2 ^ 23 % 256 ≠ 255 ∧
      roundsTo 53 (-1074) (((x.m % 2 ^ 32 : Nat) : ℚ) + ((x.m / 2 ^ 32 % 2 ^ 32 : Nat) : ℚ) * 2 ^ 32) a1 ∧
      roundsTo 53 (-1074) (a1 + ((x.m / 2 ^ 64 : Nat) : ℚ) * 2 ^ 64) a2 ∧
      roundsTo 53 (-1074) (10 ^ x.s) p ∧ roundsTo 53 (-1074) (a2 / p) q ∧
      roundsTo 24 (-149) q (absVal32Q w)

/-- D2F completes on every well-formed operand with EC = OK and writes only S[d]: a finite pattern with the operand's sign bit; both
zeros, at any scale, give a zero of their sign; and an integer up to `2^24` at scale 0 is converted exactly (R196, R192). The binary32
format is IEEE 754's (assumption 9, PRESUMED). -/
def Obligations.D2fKeepsSignAndSmallIntegers : Prop :=
  ∀ (d a : Fin 8) (s : State) (x : Dec), operandOk s a → operand s a = x →
    ∃ w : Word, exec (.d2f (regField d) (regField a)) s = .next (afterS d w .ok s) ∧
      w.getLsbD 31 = x.neg ∧ w.toNat / 2 ^ 23 % 256 ≠ 255 ∧
      (x.m = 0 → w = if x.neg then 0x80000000#32 else 0#32) ∧
      (x.m ≤ 2 ^ 24 → x.s = 0 → absVal32Q w = (x.m : ℚ))

/-! ### The datapath -/

/-- `divTenRound` is the quotient by ten rounded to nearest, a tie to even (R107). -/
def Obligations.DivTenRoundIsNearestEven : Prop :=
  ∀ m : Nat, nearestEven (divTenRound m) ((m : ℚ) / 10)

/-- `normalize` keeps the value, stops at scale 0 or at a last digit that is not 0, and takes a zero to scale 0 (R109). -/
def Obligations.NormalizeStripsExactZeros : Prop :=
  ∀ m s : Nat, (normalize m s).s ≤ s ∧ (normalize m s).m * 10 ^ (s - (normalize m s).s) = m ∧
    ((normalize m s).s = 0 ∨ (normalize m s).m % 10 ≠ 0) ∧ (m = 0 → (normalize m s).s = 0)

/-- `align`: the operand of the smaller scale is raised exactly, as far as it fits and no further than the other's scale; the other is
lowered the rest of the way by iterated banker's rounding; and the order of the operands does not matter (R110 to R112). -/
def Obligations.AlignmentRaisesThenLowers : Prop :=
  ∀ x y : Mag, x.s ≤ y.s → x.m ≤ 2 ^ 96 - 1 →
    ∃ S, x.s ≤ S ∧ S ≤ y.s ∧
      align x y = (⟨x.m * 10 ^ (S - x.s), S⟩, ⟨roundedBy (y.s - S) y.m, S⟩) ∧
      align y x = (⟨roundedBy (y.s - S) y.m, S⟩, ⟨x.m * 10 ^ (S - x.s), S⟩) ∧
      x.m * 10 ^ (S - x.s) ≤ 2 ^ 96 - 1 ∧ (S < y.s → 10 * (x.m * 10 ^ (S - x.s)) > 2 ^ 96 - 1)

/-! ### The register window and the host -/

/-- What the host reads at every offset, BUSY or not (R41, R42, R45). -/
def Obligations.WindowReadMap : Prop :=
  ∀ (s : State) (n : Fin 8),
    windowRead (0x10 * n + 0x0) s = (readD s.regs n).w0 ∧ windowRead (0x10 * n + 0x4) s = (readD s.regs n).w1 ∧
    windowRead (0x10 * n + 0x8) s = (readD s.regs n).w2 ∧ windowRead (0x10 * n + 0xC) s = (readD s.regs n).w3 ∧
    windowRead (0x80 + 4 * n) s = readS s.regs n ∧ windowRead 0xA0 s = s.cmd ∧
    windowRead 0xA4 s = statusWord s.status s.busy ∧
    (∀ off, 0xA8 ≤ off → off < 256 → windowRead off s = 0#32)

/-- A host write to a `D` word or an `S` register while BUSY = 0 stores the value, and every other word of the window reads as before
(R41, R48 to R50). -/
def Obligations.WindowReadAfterWrite : Prop :=
  ∀ (s : State) (off : Nat) (v : Word), s.busy = false → off < 0xA0 → off % 4 = 0 →
    windowRead off (windowWrite off v s) = v ∧
    (∀ off2, off2 < 256 → off2 % 4 = 0 → off2 ≠ off → windowRead off2 (windowWrite off v s) = windowRead off2 s)

/-- Host writes while BUSY = 1: to `D`, `S` and CMD ignored with PV set; to STATUS performed; to a reserved offset ignored (R44). -/
def Obligations.BusyWritesAreIgnored : Prop :=
  ∀ (s : State) (off : Nat) (v : Word), s.busy = true → off % 4 = 0 → off < 256 →
    (off < 0xA4 → windowWrite off v s = { s with status := ⟨s.status.ec, s.status.cf, s.status.es, true⟩ }) ∧
    (off = 0xA4 → windowWrite off v s =
      { s with status := ⟨s.status.ec, s.status.cf, s.status.es && !v.getLsbD 4, s.status.pv && !v.getLsbD 5⟩ }) ∧
    (0xA8 ≤ off → windowWrite off v s = s)

/-- STATUS bit by bit as the host reads it, and what a host write to it does, BUSY or not (R26, R221). -/
def Obligations.StatusLayoutAndClear : Prop :=
  (∀ s : State,
    (windowRead 0xA4 s).toNat % 8 =
      (match s.status.ec with
       | .ok => 0 | .overflowLarge => 1 | .overflowSmall => 2 | .divisionByZero => 3 | .invalidArgument => 4) ∧
    (windowRead 0xA4 s).getLsbD 3 = s.status.cf ∧ (windowRead 0xA4 s).getLsbD 4 = s.status.es ∧
    (windowRead 0xA4 s).getLsbD 5 = s.status.pv ∧ (windowRead 0xA4 s).getLsbD 8 = s.busy ∧
    (∀ k, k = 6 ∨ k = 7 ∨ 9 ≤ k → (windowRead 0xA4 s).getLsbD k = false)) ∧
  (∀ (s : State) (v : Word), windowWrite 0xA4 v s =
    { s with status := ⟨s.status.ec, s.status.cf, s.status.es && !v.getLsbD 4, s.status.pv && !v.getLsbD 5⟩ })

/-- CMD: a write while BUSY = 0 is accepted whatever the word, and the latch takes the word and the registers; a write while BUSY = 1 is
ignored and sets PV; a read returns the last accepted word, 0 after reset (R28, R70). -/
def Obligations.CommandAcceptance : Prop :=
  (∀ (s : State) (c : Word), s.busy = false →
    (windowWrite 0xA0 c s).cmd = c ∧ (windowWrite 0xA0 c s).busy = true ∧
    (∃ l, (windowWrite 0xA0 c s).latch = some l ∧ l.word = c ∧ l.regs = s.regs) ∧
    (windowWrite 0xA0 c s).regs = s.regs ∧ (windowWrite 0xA0 c s).status = s.status) ∧
  (∀ (s : State) (c : Word), s.busy = true →
    windowWrite 0xA0 c s = { s with status := ⟨s.status.ec, s.status.cf, s.status.es, true⟩ }) ∧
  (∀ s : State, windowRead 0xA0 s = s.cmd) ∧ windowRead 0xA0 State.reset = 0#32

/-- A reserved offset reads as 0 and ignores writes, with no STATUS bit set, BUSY or not (R42). -/
def Obligations.ReservedOffsets : Prop :=
  ∀ (s : State) (off : Nat) (v : Word), 0xA8 ≤ off → off < 256 → off % 4 = 0 →
    windowRead off s = 0#32 ∧ windowWrite off v s = s

/-- A host move outside the contract faults, and one inside it does not (R43, R229). -/
def Obligations.OutOfContractAccessFaults : Prop :=
  ∀ (s : State) (op : HostOp), (∀ l, ¬ completionDue s l) → hostNext s = some op →
    (¬ moveInContract op → ∃ f, step s = .fault f) ∧ (moveInContract op → ∃ t, step s = .next t)

/-- A host read gives the host the register's committed value and changes nothing else of DCORE; `WAIT` reads STATUS again until
BUSY = 0 (R45, R49, R51, R59, R69). The model's choice: the host's place and the list `replies`, and `WAIT` as one move that stays in
place (assumption 3, DESIGN CHOICE), and the latency left that goes down by one (assumption 2, DESIGN CHOICE). -/
def Obligations.HostReadsObserve : Prop :=
  (∀ (s : State) (off : Nat), (∀ l, ¬ completionDue s l) → off < 256 → off % 4 = 0 → hostNext s = some (memRead off) →
    step s = .next { s with
      hpc := s.hpc + 1, replies := s.replies ++ [windowRead off s],
      latch := s.latch.map fun l => { l with wait := l.wait - 1 } }) ∧
  (∀ s : State, (∀ l, ¬ completionDue s l) → hostNext s = some .wait →
    step s = .next { s with
      hpc := if s.busy then s.hpc else s.hpc + 1, st := windowRead 0xA4 s, replies := s.replies ++ [windowRead 0xA4 s],
      latch := s.latch.map fun l => { l with wait := l.wait - 1 } })

/-- A host move in its step: a write performs the window write at its offset and goes on; `RDST` reads STATUS into `st`; a branch goes to
its target exactly when its condition holds of `st`, read as STATUS; `GOTO` goes to its target (R26, R59, R69). The model's choice: the
host's place, `st` and `replies` as fields (assumption 3, DESIGN CHOICE), and the latency left that goes down by one on each of these
moves (assumption 2, DESIGN CHOICE). -/
def Obligations.HostMovesAct : Prop :=
  ∀ s ticked : State, (∀ l, ¬ completionDue s l) →
    ticked = { s with latch := s.latch.map fun l => { l with wait := l.wait - 1 } } →
    (∀ (off : Nat) (v : Word), off < 256 → off % 4 = 0 → hostNext s = some (memWrite off v) →
      step s = .next { windowWrite off v ticked with hpc := s.hpc + 1 }) ∧
    (hostNext s = some .readStatus →
      step s = .next { ticked with
        hpc := s.hpc + 1, st := windowRead 0xA4 s, replies := s.replies ++ [windowRead 0xA4 s] }) ∧
    (∀ (c : HostCond) (target : Nat), hostNext s = some (.branch c target) →
      step s = .next { ticked with
        hpc := if (match c with
          | .ecIs k => decide (s.st.toNat % 8 = k)
          | .ecIsNot k => decide (s.st.toNat % 8 ≠ k)
          | .cfIs b => decide (s.st.getLsbD 3 = b)
          | .esSet => s.st.getLsbD 4) then target else s.hpc + 1 }) ∧
    (∀ target : Nat, hostNext s = some (.jump target) → step s = .next { ticked with hpc := target })

/-- The reset signal takes every register, STATUS, CMD and the latch to the reset value, discarding a command in flight (R250). The model's
choice: the signal is one move of the script, and a completion already due comes before it (assumption 12, DESIGN CHOICE); what the host
has read is kept (assumption 5, DESIGN CHOICE). -/
def Obligations.ResetSignalDiscardsCommand : Prop :=
  ∀ s : State, (∀ l, ¬ completionDue s l) → hostNext s = some .reset →
    ∃ t, step s = .next t ∧ t.regs = State.reset.regs ∧ t.status = State.reset.status ∧ t.cmd = 0#32 ∧ t.latch = none ∧
      t.replies = s.replies

/-- A run that has ended stays as it is; a run halted with BUSY = 1 ends by the completion it still owes (R260). The model's choice: a place
past the last move counts as ended, the completion owed takes one step (assumption 2, DESIGN CHOICE), and an ended run, as an empty script
gives at reset, stays as it is step after step (assumption 6, DESIGN CHOICE). -/
def Obligations.EndedRunStaysEnded : Prop :=
  (∀ s : State, runEnded s = true → step s = .next s) ∧
  (∀ s : State, hostDone s = true → s.busy = true → ∃ t, step s = .next t ∧ runEnded t = true)
end

