-- ==== Sys2Proof/Laws/Datapath.lean ====
section
/-! SUPPORT. Bounds and closed forms of the datapath loops. -/

namespace Sys2Proof.Machine

theorem mulByTen_of_le (m : Nat) (h : 10 * m ≤ 2 ^ 96 - 1) : mulByTen m = (10 * m, true) := by simp [mulByTen, h]

theorem mulByTen_of_gt (m : Nat) (h : 10 * m > 2 ^ 96 - 1) : mulByTen m = (m, false) := by
  have : ¬ 10 * m ≤ 2 ^ 96 - 1 := by omega
  simp [mulByTen, this]

theorem divTenRound_bounds (m : Nat) : m / 10 ≤ divTenRound m ∧ divTenRound m ≤ m / 10 + 1 := by
  by_cases h : m % 10 > 5 ∨ (m % 10 = 5 ∧ m / 10 % 2 = 1) <;> simp [divTenRound, divByTen, h]

theorem truncMag_eq_div (m s : Nat) : truncMag m s = m / 10 ^ s := by
  induction s generalizing m with
  | zero => simp [truncMag]
  | succ n ih => rw [truncMag, ih, divByTen, Nat.div_div_eq_div_mul, Nat.pow_succ, Nat.mul_comm]

theorem mulReduce_scale_le (p s : Nat) : (mulReduce p s).s ≤ 28 := by
  induction s generalizing p with
  | zero => simp [mulReduce]
  | succ n ih =>
    rw [mulReduce]
    split
    · exact ih _
    · next h => simp only [not_or, Config.scaleMax] at h ⊢; omega

theorem divExpand_scale_le (db n q r t : Nat) (h : t ≤ 28) : (divExpand db n q r t).s ≤ 28 := by
  induction n generalizing q r t with
  | zero => simpa [divExpand] using h
  | succ n ih =>
    rw [divExpand]
    split
    · exact h
    · split
      · exact h
      · split
        · exact h
        · next h1 _ _ => exact ih _ _ _ (by simp only [not_or, Config.scaleMax] at h1; omega)

theorem normalize_scale_le (m s : Nat) : (normalize m s).s ≤ s := by
  induction s generalizing m with
  | zero => simp [normalize]
  | succ n ih =>
    rw [normalize]
    split
    · exact Nat.le_succ_of_le (ih _)
    · exact Nat.le_refl _

/-- Alignment keeps both scales within any bound on the two it starts from. -/
theorem alignLoop_scale_le (n : Nat) (raising : Bool) (a b : Mag) (k : Nat) (ha : a.s ≤ k) (hb : b.s ≤ k) :
    (alignLoop n raising a b).1.s ≤ k ∧ (alignLoop n raising a b).2.s ≤ k := by
  induction n generalizing raising a b with
  | zero => exact ⟨ha, hb⟩
  | succ n ih =>
    rw [alignLoop]
    split
    · exact ⟨ha, hb⟩
    · split
      · split <;> apply ih <;> first | assumption | (show _ ≤ _; dsimp only; omega)
      · split <;> apply ih <;> first | assumption | (show _ ≤ _; dsimp only; omega)

theorem align_scale_le (a b : Mag) (k : Nat) (ha : a.s ≤ k) (hb : b.s ≤ k) :
    (align a b).1.s ≤ k ∧ (align a b).2.s ≤ k := alignLoop_scale_le _ _ _ _ _ ha hb

end Sys2Proof.Machine
end

