-- ==== Sys2Proof/Laws/Operands.lean ====
section
/-! SUPPORT. The register files' read and write laws, the register a field names, and the decimal format. -/

namespace Sys2Proof.Machine

@[simp] theorem readD_writeD_same (r : Regs) (n : Fin 8) (v : DReg) : readD (writeD r n v) n = v := by
  simp [readD, writeD]

theorem readD_writeD_other (r : Regs) {n m : Fin 8} (v : DReg) (h : m ≠ n) : readD (writeD r n v) m = readD r m := by
  have h' : n.val ≠ m.val := fun e => h (Fin.ext e.symm)
  simp [readD, writeD, h']

@[simp] theorem readS_writeS_same (r : Regs) (n : Fin 8) (v : Word) : readS (writeS r n v) n = v := by
  simp [readS, writeS]

theorem readS_writeS_other (r : Regs) {n m : Fin 8} (v : Word) (h : m ≠ n) : readS (writeS r n v) m = readS r m := by
  have h' : n.val ≠ m.val := fun e => h (Fin.ext e.symm)
  simp [readS, writeS, h']

@[simp] theorem readS_writeD (r : Regs) (n m : Fin 8) (v : DReg) : readS (writeD r n v) m = readS r m := rfl

@[simp] theorem readD_writeS (r : Regs) (n m : Fin 8) (v : Word) : readD (writeS r n v) m = readD r m := rfl

@[simp] theorem regIndex_regField (n : Fin 8) : regIndex (regField n) = some n := by
  revert n; decide

@[simp] theorem named_regField (n : Fin 8) : RegField.named (regField n) = true := by
  revert n; decide

theorem regIndex_eq_none_of_not_named (f : RegField) (h : RegField.named f = false) : regIndex f = none := by
  revert f; decide

theorem regIndex_eq_some_of_named (f : RegField) (h : RegField.named f = true) :
    ∃ n, regIndex f = some n ∧ regField n = f := by
  revert f; decide

@[simp] theorem toNat_regField (n : Fin 8) : (regField n).toNat = n.val := by
  revert n; decide

/-- The control word as a number (R21). -/
theorem toNat_w3_pack (v : Dec) (h : v.s < 256) :
    (pack v).w3.toNat = (if v.neg then 2 ^ 31 else 0) + v.s * 2 ^ 16 := by
  cases hn : v.neg <;> simp [pack, hn] <;> omega

@[simp] theorem signOf_pack (v : Dec) (h : v.s < 256) : signOf (pack v) = v.neg := by
  rw [signOf, BitVec.getLsbD, Nat.testBit_eq_decide_div_mod_eq, toNat_w3_pack v h]
  cases v.neg <;> simp <;> omega

theorem scaleOf_pack (v : Dec) (h : v.s < 256) : scaleOf (pack v) = v.s := by
  rw [scaleOf, BitVec.extractLsb'_toNat, toNat_w3_pack v h, Nat.shiftRight_eq_div_pow]
  cases v.neg <;> simp <;> omega

theorem mantOf_pack (v : Dec) (h : v.m < 2 ^ 96) : mantOf (pack v) = v.m := by
  simp only [mantOf, pack, BitVec.toNat_ofNat]
  omega

theorem unpack_pack (v : Dec) (hm : v.m < 2 ^ 96) (hs : v.s < 256) : unpack (pack v) = v := by
  simp [unpack, mantOf_pack v hm, scaleOf_pack v hs, signOf_pack v hs]

theorem wellFormedD_pack (v : Dec) (h : v.s ≤ 28) : wellFormedD (pack v) = true := by
  have h0 : (pack v).w3.extractLsb' 0 16 = 0#16 := by
    apply BitVec.eq_of_toNat_eq
    rw [BitVec.extractLsb'_toNat, toNat_w3_pack v (by omega), Nat.shiftRight_eq_div_pow]
    cases v.neg <;> simp
  have h1 : (pack v).w3.extractLsb' 24 7 = 0#7 := by
    apply BitVec.eq_of_toNat_eq
    rw [BitVec.extractLsb'_toNat, toNat_w3_pack v (by omega), Nat.shiftRight_eq_div_pow]
    cases v.neg <;> simp <;> omega
  simp [wellFormedD, h0, h1, scaleOf_pack v (by omega), h]

theorem mantOf_lt (r : DReg) : mantOf r < 2 ^ 96 := by
  have h0 := r.w0.isLt
  have h1 := r.w1.isLt
  have h2 := r.w2.isLt
  simp only [mantOf]
  omega

theorem scaleOf_le (r : DReg) (h : wellFormedD r = true) : scaleOf r ≤ 28 := by
  simp [wellFormedD] at h
  exact h.2

end Sys2Proof.Machine
end

