-- ==== Sys2Proof/Laws/State.lean ====
section
/-! SUPPORT. One lemma per field per update of `State`, so that no proof unfolds a record update. -/

namespace Sys2Proof.Machine

/-! `completeWith` -/

@[simp] theorem completeWith_regs (w : Write) (ec : ErrorCode) (s : State) : (completeWith w ec s).regs = writeRegs w s.regs := rfl
@[simp] theorem completeWith_status (w : Write) (ec : ErrorCode) (s : State) : (completeWith w ec s).status = finishStatus ec (writeCf w s.status) := rfl
@[simp] theorem completeWith_cmd (w : Write) (ec : ErrorCode) (s : State) : (completeWith w ec s).cmd = s.cmd := rfl
@[simp] theorem completeWith_latch (w : Write) (ec : ErrorCode) (s : State) : (completeWith w ec s).latch = none := rfl
@[simp] theorem completeWith_script (w : Write) (ec : ErrorCode) (s : State) : (completeWith w ec s).script = s.script := rfl
@[simp] theorem completeWith_hpc (w : Write) (ec : ErrorCode) (s : State) : (completeWith w ec s).hpc = s.hpc := rfl
@[simp] theorem completeWith_st (w : Write) (ec : ErrorCode) (s : State) : (completeWith w ec s).st = s.st := rfl
@[simp] theorem completeWith_replies (w : Write) (ec : ErrorCode) (s : State) : (completeWith w ec s).replies = s.replies := rfl
@[simp] theorem completeWith_accepted (w : Write) (ec : ErrorCode) (s : State) : (completeWith w ec s).accepted = s.accepted := rfl

/-! `ignoreBusyWrite` -/

@[simp] theorem ignoreBusyWrite_regs (s : State) : (ignoreBusyWrite s).regs = s.regs := rfl
@[simp] theorem ignoreBusyWrite_status (s : State) : (ignoreBusyWrite s).status = { s.status with pv := true } := rfl
@[simp] theorem ignoreBusyWrite_cmd (s : State) : (ignoreBusyWrite s).cmd = s.cmd := rfl
@[simp] theorem ignoreBusyWrite_latch (s : State) : (ignoreBusyWrite s).latch = s.latch := rfl
@[simp] theorem ignoreBusyWrite_script (s : State) : (ignoreBusyWrite s).script = s.script := rfl
@[simp] theorem ignoreBusyWrite_hpc (s : State) : (ignoreBusyWrite s).hpc = s.hpc := rfl
@[simp] theorem ignoreBusyWrite_st (s : State) : (ignoreBusyWrite s).st = s.st := rfl
@[simp] theorem ignoreBusyWrite_replies (s : State) : (ignoreBusyWrite s).replies = s.replies := rfl
@[simp] theorem ignoreBusyWrite_accepted (s : State) : (ignoreBusyWrite s).accepted = s.accepted := rfl

/-! `latchCommand` -/

@[simp] theorem latchCommand_regs (n : Nat) (c : Word) (s : State) : (latchCommand n c s).regs = s.regs := rfl
@[simp] theorem latchCommand_status (n : Nat) (c : Word) (s : State) : (latchCommand n c s).status = s.status := rfl
@[simp] theorem latchCommand_cmd (n : Nat) (c : Word) (s : State) : (latchCommand n c s).cmd = c := rfl
@[simp] theorem latchCommand_latch (n : Nat) (c : Word) (s : State) : (latchCommand n c s).latch = some ⟨c, s.regs, n⟩ := rfl
@[simp] theorem latchCommand_script (n : Nat) (c : Word) (s : State) : (latchCommand n c s).script = s.script := rfl
@[simp] theorem latchCommand_hpc (n : Nat) (c : Word) (s : State) : (latchCommand n c s).hpc = s.hpc := rfl
@[simp] theorem latchCommand_st (n : Nat) (c : Word) (s : State) : (latchCommand n c s).st = s.st := rfl
@[simp] theorem latchCommand_replies (n : Nat) (c : Word) (s : State) : (latchCommand n c s).replies = s.replies := rfl
@[simp] theorem latchCommand_accepted (n : Nat) (c : Word) (s : State) : (latchCommand n c s).accepted = s.accepted := rfl

/-! `accept` -/

@[simp] theorem accept_regs (c : Word) (s : State) : (accept c s).regs = s.regs := rfl
@[simp] theorem accept_status (c : Word) (s : State) : (accept c s).status = s.status := rfl
@[simp] theorem accept_cmd (c : Word) (s : State) : (accept c s).cmd = c := rfl
@[simp] theorem accept_latch (c : Word) (s : State) : (accept c s).latch = some ⟨c, s.regs, Config.cmdLatency s.accepted⟩ := rfl
@[simp] theorem accept_script (c : Word) (s : State) : (accept c s).script = s.script := rfl
@[simp] theorem accept_hpc (c : Word) (s : State) : (accept c s).hpc = s.hpc := rfl
@[simp] theorem accept_st (c : Word) (s : State) : (accept c s).st = s.st := rfl
@[simp] theorem accept_replies (c : Word) (s : State) : (accept c s).replies = s.replies := rfl
@[simp] theorem accept_accepted (c : Word) (s : State) : (accept c s).accepted = s.accepted + 1 := rfl

/-! `resetDcore` -/

@[simp] theorem resetDcore_regs (s : State) : (resetDcore s).regs = State.reset.regs := rfl
@[simp] theorem resetDcore_status (s : State) : (resetDcore s).status = State.reset.status := rfl
@[simp] theorem resetDcore_cmd (s : State) : (resetDcore s).cmd = State.reset.cmd := rfl
@[simp] theorem resetDcore_latch (s : State) : (resetDcore s).latch = none := rfl
@[simp] theorem resetDcore_script (s : State) : (resetDcore s).script = s.script := rfl
@[simp] theorem resetDcore_hpc (s : State) : (resetDcore s).hpc = s.hpc := rfl
@[simp] theorem resetDcore_st (s : State) : (resetDcore s).st = s.st := rfl
@[simp] theorem resetDcore_replies (s : State) : (resetDcore s).replies = s.replies := rfl
@[simp] theorem resetDcore_accepted (s : State) : (resetDcore s).accepted = s.accepted := rfl

/-! `tick` -/

@[simp] theorem tick_regs (s : State) : (tick s).regs = s.regs := rfl
@[simp] theorem tick_status (s : State) : (tick s).status = s.status := rfl
@[simp] theorem tick_cmd (s : State) : (tick s).cmd = s.cmd := rfl
@[simp] theorem tick_latch (s : State) : (tick s).latch = s.latch.map fun l => { l with wait := l.wait - 1 } := rfl
@[simp] theorem tick_script (s : State) : (tick s).script = s.script := rfl
@[simp] theorem tick_hpc (s : State) : (tick s).hpc = s.hpc := rfl
@[simp] theorem tick_st (s : State) : (tick s).st = s.st := rfl
@[simp] theorem tick_replies (s : State) : (tick s).replies = s.replies := rfl
@[simp] theorem tick_accepted (s : State) : (tick s).accepted = s.accepted := rfl

/-! `advance` -/

@[simp] theorem advance_regs (s : State) : (advance s).regs = s.regs := rfl
@[simp] theorem advance_status (s : State) : (advance s).status = s.status := rfl
@[simp] theorem advance_cmd (s : State) : (advance s).cmd = s.cmd := rfl
@[simp] theorem advance_latch (s : State) : (advance s).latch = s.latch := rfl
@[simp] theorem advance_script (s : State) : (advance s).script = s.script := rfl
@[simp] theorem advance_hpc (s : State) : (advance s).hpc = s.hpc + 1 := rfl
@[simp] theorem advance_st (s : State) : (advance s).st = s.st := rfl
@[simp] theorem advance_replies (s : State) : (advance s).replies = s.replies := rfl
@[simp] theorem advance_accepted (s : State) : (advance s).accepted = s.accepted := rfl

/-! `reply` -/

@[simp] theorem reply_regs (v : Word) (s : State) : (reply v s).regs = s.regs := rfl
@[simp] theorem reply_status (v : Word) (s : State) : (reply v s).status = s.status := rfl
@[simp] theorem reply_cmd (v : Word) (s : State) : (reply v s).cmd = s.cmd := rfl
@[simp] theorem reply_latch (v : Word) (s : State) : (reply v s).latch = s.latch := rfl
@[simp] theorem reply_script (v : Word) (s : State) : (reply v s).script = s.script := rfl
@[simp] theorem reply_hpc (v : Word) (s : State) : (reply v s).hpc = s.hpc := rfl
@[simp] theorem reply_st (v : Word) (s : State) : (reply v s).st = s.st := rfl
@[simp] theorem reply_replies (v : Word) (s : State) : (reply v s).replies = s.replies ++ [v] := rfl
@[simp] theorem reply_accepted (v : Word) (s : State) : (reply v s).accepted = s.accepted := rfl

/-! `pollStatus` -/

@[simp] theorem pollStatus_regs (s : State) : (pollStatus s).regs = s.regs := rfl
@[simp] theorem pollStatus_status (s : State) : (pollStatus s).status = s.status := rfl
@[simp] theorem pollStatus_cmd (s : State) : (pollStatus s).cmd = s.cmd := rfl
@[simp] theorem pollStatus_latch (s : State) : (pollStatus s).latch = s.latch := rfl
@[simp] theorem pollStatus_script (s : State) : (pollStatus s).script = s.script := rfl
@[simp] theorem pollStatus_hpc (s : State) : (pollStatus s).hpc = s.hpc := rfl
@[simp] theorem pollStatus_st (s : State) : (pollStatus s).st = statusWord s.status s.busy := rfl
@[simp] theorem pollStatus_replies (s : State) : (pollStatus s).replies = s.replies ++ [statusWord s.status s.busy] := rfl
@[simp] theorem pollStatus_accepted (s : State) : (pollStatus s).accepted = s.accepted := rfl

/-! `busy` after each update -/

@[simp] theorem completeWith_busy (w : Write) (ec : ErrorCode) (s : State) : (completeWith w ec s).busy = false := rfl
@[simp] theorem latchCommand_busy (n : Nat) (c : Word) (s : State) : (latchCommand n c s).busy = true := rfl
@[simp] theorem accept_busy (c : Word) (s : State) : (accept c s).busy = true := rfl
@[simp] theorem resetDcore_busy (s : State) : (resetDcore s).busy = false := rfl
@[simp] theorem tick_busy (s : State) : (tick s).busy = s.busy := by simp [State.busy]
@[simp] theorem advance_busy (s : State) : (advance s).busy = s.busy := rfl
@[simp] theorem reply_busy (v : Word) (s : State) : (reply v s).busy = s.busy := rfl
@[simp] theorem pollStatus_busy (s : State) : (pollStatus s).busy = s.busy := rfl
@[simp] theorem ignoreBusyWrite_busy (s : State) : (ignoreBusyWrite s).busy = s.busy := rfl

end Sys2Proof.Machine
end

