-- ==== Sys2Proof/Laws/Ops.lean ====
section
/-! SUPPORT. For each shared operation, once, everything it can do. -/

namespace Sys2Proof.Machine

/-- A DDD command ends by a failed validation or by its own result (R71). -/
theorem runDDD_cases (sem : Dec → Dec → Dec × ErrorCode) (rd ra rb : RegField) (s : State) :
    runDDD sem rd ra rb s = .next (completeInvalid s) ∨
      ∃ d a b, regIndex rd = some d ∧ regIndex ra = some a ∧ regIndex rb = some b ∧
        wellFormedD (readD (sources s) a) = true ∧ wellFormedD (readD (sources s) b) = true ∧
        runDDD sem rd ra rb s = .next (completeWith
          (.dreg d (pack (sem (unpack (readD (sources s) a)) (unpack (readD (sources s) b))).1))
          (sem (unpack (readD (sources s) a)) (unpack (readD (sources s) b))).2 s) := by
  unfold runDDD
  split
  · next d a b hd ha hb =>
    cases h1 : wellFormedD (readD (sources s) a)
    · exact .inl rfl
    · cases h2 : wellFormedD (readD (sources s) b)
      · exact .inl rfl
      · exact .inr ⟨d, a, b, hd, ha, hb, h1, h2, rfl⟩
  · exact .inl rfl

/-- A CMP command ends by a failed validation or by writing CF with EC = OK (R71). -/
theorem runCMP_cases (rel : Dec → Dec → Bool) (ra rb : RegField) (s : State) :
    runCMP rel ra rb s = .next (completeInvalid s) ∨
      ∃ a b, regIndex ra = some a ∧ regIndex rb = some b ∧
        wellFormedD (readD (sources s) a) = true ∧ wellFormedD (readD (sources s) b) = true ∧
        runCMP rel ra rb s = .next (completeWith
          (.cf (rel (unpack (readD (sources s) a)) (unpack (readD (sources s) b)))) .ok s) := by
  unfold runCMP
  split
  · next a b ha hb =>
    cases h1 : wellFormedD (readD (sources s) a)
    · exact .inl rfl
    · cases h2 : wellFormedD (readD (sources s) b)
      · exact .inl rfl
      · exact .inr ⟨a, b, ha, hb, h1, h2, rfl⟩
  · exact .inl rfl

/-- A DD command ends by a failed validation or by its own result (R71). -/
theorem runDD_cases (sem : Dec → Dec × ErrorCode) (rd ra : RegField) (s : State) :
    runDD sem rd ra s = .next (completeInvalid s) ∨
      ∃ d a, regIndex rd = some d ∧ regIndex ra = some a ∧ wellFormedD (readD (sources s) a) = true ∧
        runDD sem rd ra s = .next (completeWith (.dreg d (pack (sem (unpack (readD (sources s) a))).1))
          (sem (unpack (readD (sources s) a))).2 s) := by
  unfold runDD
  split
  · next d a hd ha =>
    cases h1 : wellFormedD (readD (sources s) a)
    · exact .inl rfl
    · exact .inr ⟨d, a, hd, ha, h1, rfl⟩
  · exact .inl rfl

/-- A DS command ends by an unnamed register or by its own result (R71). -/
theorem runDS_cases (sem : Word → Dec × ErrorCode) (rd ra : RegField) (s : State) :
    runDS sem rd ra s = .next (completeInvalid s) ∨
      ∃ d a, regIndex rd = some d ∧ regIndex ra = some a ∧
        runDS sem rd ra s = .next (completeWith (.dreg d (pack (sem (readS (sources s) a)).1))
          (sem (readS (sources s) a)).2 s) := by
  unfold runDS
  split
  · next d a hd ha => exact .inr ⟨d, a, hd, ha, rfl⟩
  · exact .inl rfl

/-- An SD command ends by a failed validation or by its own result (R71). -/
theorem runSD_cases (sem : Dec → Word × ErrorCode) (rd ra : RegField) (s : State) :
    runSD sem rd ra s = .next (completeInvalid s) ∨
      ∃ d a, regIndex rd = some d ∧ regIndex ra = some a ∧ wellFormedD (readD (sources s) a) = true ∧
        runSD sem rd ra s = .next (completeWith (.sreg d (sem (unpack (readD (sources s) a))).1)
          (sem (unpack (readD (sources s) a))).2 s) := by
  unfold runSD
  split
  · next d a hd ha =>
    cases h1 : wellFormedD (readD (sources s) a)
    · exact .inl rfl
    · exact .inr ⟨d, a, hd, ha, h1, rfl⟩
  · exact .inl rfl

/-- The result of a DDD command whose registers are named and whose operands are well formed. -/
theorem runDDD_ok (sem : Dec → Dec → Dec × ErrorCode) (d a b : Fin 8) (s : State)
    (ha : wellFormedD (readD (sources s) a) = true) (hb : wellFormedD (readD (sources s) b) = true) :
    runDDD sem (regField d) (regField a) (regField b) s = .next (completeWith
      (.dreg d (pack (sem (unpack (readD (sources s) a)) (unpack (readD (sources s) b))).1))
      (sem (unpack (readD (sources s) a)) (unpack (readD (sources s) b))).2 s) := by
  simp [runDDD, ha, hb]

/-- The result of a CMP command whose registers are named and whose operands are well formed. -/
theorem runCMP_ok (rel : Dec → Dec → Bool) (a b : Fin 8) (s : State)
    (ha : wellFormedD (readD (sources s) a) = true) (hb : wellFormedD (readD (sources s) b) = true) :
    runCMP rel (regField a) (regField b) s = .next (completeWith
      (.cf (rel (unpack (readD (sources s) a)) (unpack (readD (sources s) b)))) .ok s) := by
  simp [runCMP, ha, hb]

/-- The result of a DD command whose registers are named and whose operand is well formed. -/
theorem runDD_ok (sem : Dec → Dec × ErrorCode) (d a : Fin 8) (s : State)
    (ha : wellFormedD (readD (sources s) a) = true) :
    runDD sem (regField d) (regField a) s = .next (completeWith
      (.dreg d (pack (sem (unpack (readD (sources s) a))).1)) (sem (unpack (readD (sources s) a))).2 s) := by
  simp [runDD, ha]

/-- The result of a DS command whose registers are named. -/
theorem runDS_ok (sem : Word → Dec × ErrorCode) (d a : Fin 8) (s : State) :
    runDS sem (regField d) (regField a) s = .next (completeWith
      (.dreg d (pack (sem (readS (sources s) a)).1)) (sem (readS (sources s) a)).2 s) := by
  simp [runDS]

/-- The result of an SD command whose registers are named and whose operand is well formed. -/
theorem runSD_ok (sem : Dec → Word × ErrorCode) (d a : Fin 8) (s : State)
    (ha : wellFormedD (readD (sources s) a) = true) :
    runSD sem (regField d) (regField a) s = .next (completeWith
      (.sreg d (sem (unpack (readD (sources s) a))).1) (sem (unpack (readD (sources s) a))).2 s) := by
  simp [runSD, ha]

/-- With an empty latch a command reads the registers as they stand. -/
theorem sources_idle (s : State) (h : s.latch = none) : sources s = s.regs := by simp [sources, h]

/-- With a command in flight it reads the latched registers (R70). -/
theorem sources_inFlight (s : State) (l : Latch) (h : s.latch = some l) : sources s = l.regs := by simp [sources, h]

/-- The completion that is due, and when one is (R72). -/
theorem dueWord_eq_some (s : State) (c : Word) :
    dueWord s = some c ↔ ∃ l, s.latch = some l ∧ (l.wait = 0 ∨ hostDone s = true) ∧ l.word = c := by
  unfold dueWord
  cases hl : s.latch with
  | none => simp
  | some l =>
    by_cases h : l.wait = 0 <;> cases hd : hostDone s <;> simp [h]

/-- No completion is due. -/
theorem dueWord_eq_none (s : State) :
    dueWord s = none ↔ ∀ l, s.latch = some l → l.wait ≠ 0 ∧ hostDone s = false := by
  unfold dueWord
  cases hl : s.latch with
  | none => simp
  | some l =>
    by_cases h : l.wait = 0 <;> cases hd : hostDone s <;> simp [h]

/-- An access inside the contract has its offset (R41, R43). -/
theorem windowOffset_inside (off : Nat) (h : off < 256) (h4 : off % 4 = 0) :
    windowOffset (Config.dcoreBase + off) 4 = .ok off := by
  simp only [windowOffset, Nat.add_sub_cancel_left, Config.windowBytes]
  rw [if_neg (by omega), if_neg (by omega), if_neg (by omega)]

/-- The offset of an access that has one (R41, R43). -/
theorem windowOffset_eq_ok (addr bytes off : Nat) (h : windowOffset addr bytes = .ok off) :
    bytes = 4 ∧ addr = Config.dcoreBase + off ∧ off < 256 ∧ off % 4 = 0 := by
  unfold windowOffset at h
  split at h
  · cases h
  · split at h
    · cases h
    · split at h
      · cases h
      · cases h
        simp only [ne_eq, not_not, not_or, not_lt, ge_iff_le, not_le, Config.windowBytes] at *
        omega

end Sys2Proof.Machine
end

