-- ==== Sys2Proof/Laws/Exec.lean ====
section
/-! SUPPORT. What the completion of any command can do, once for all eighteen; and the next states of Safety as completions. -/

namespace Sys2Proof.Machine

theorem completeInvalid_eq_afterInvalid (s : State) : completeInvalid s = afterInvalid s := by
  simp [completeInvalid, afterInvalid, completeWith, writeRegs, finishStatus, writeCf]

theorem completeWith_dreg_eq_afterD (d : Fin 8) (v : Dec) (ec : ErrorCode) (s : State) :
    completeWith (.dreg d (pack v)) ec s = afterD d v ec s := by
  simp [afterD, completeWith, writeRegs, finishStatus, writeCf, writeD]

theorem completeWith_sreg_eq_afterS (d : Fin 8) (v : Word) (ec : ErrorCode) (s : State) :
    completeWith (.sreg d v) ec s = afterS d v ec s := by
  simp [afterS, completeWith, writeRegs, finishStatus, writeCf, writeS]

theorem completeWith_cf_eq_afterCF (b : Bool) (s : State) : completeWith (.cf b) .ok s = afterCF b s := by
  simp [afterCF, completeWith, writeRegs, finishStatus, writeCf]

/-- The mask of R23's reserved bits, field by field. -/
theorem reservedBits_eq_zero_iff (w : Word) :
    w &&& 0x7F00FFFF#32 = 0#32 ↔ (w.extractLsb' 0 16 = 0#16 ∧ w.extractLsb' 24 7 = 0#7) := by
  constructor
  · intro h
    have hb : ∀ i, (w &&& 0x7F00FFFF#32).getLsbD i = false := by intro i; simp [h]
    constructor
    · apply BitVec.eq_of_getLsbD_eq
      intro i hi
      have := hb i
      interval_cases i <;> simpa using this
    · apply BitVec.eq_of_getLsbD_eq
      intro i hi
      have := hb (24 + i)
      interval_cases i <;> simpa using this
  · rintro ⟨h1, h2⟩
    apply BitVec.eq_of_getLsbD_eq
    intro i hi
    have a1 : ∀ j, (w.extractLsb' 0 16).getLsbD j = false := by intro j; simp [h1]
    have a2 : ∀ j, (w.extractLsb' 24 7).getLsbD j = false := by intro j; simp [h2]
    simp only [BitVec.getLsbD_extractLsb'] at a1 a2
    have b1 := a1 i
    have b2 := a2 (i - 24)
    interval_cases i <;> simp_all

theorem operandOk_iff (s : State) (n : Fin 8) : operandOk s n ↔ wellFormedD (readD (sources s) n) = true := by
  unfold operandOk wellFormedD scaleOf
  rw [reservedBits_eq_zero_iff, BitVec.extractLsb'_toNat, Nat.shiftRight_eq_div_pow]
  simp [and_assoc]

/-- No completion is due, said with the due word. -/
theorem not_completionDue_iff (s : State) : (∀ l, ¬ completionDue s l) ↔ dueWord s = none := by
  rw [dueWord_eq_none]
  simp [completionDue]

theorem dueWord_of_completionDue (s : State) (l : Latch) (h : completionDue s l) : dueWord s = some l.word :=
  (dueWord_eq_some _ _).2 ⟨l, h.1, h.2, rfl⟩

/-- A comparison ends by a failed validation or by writing CF (R36, R71). -/
theorem comparison_cases (rel : Dec → Dec → Bool) (ra rb : RegField) (s : State) :
    runCMP rel ra rb s = .next (completeInvalid s) ∨ ∃ b, runCMP rel ra rb s = .next (completeWith (.cf b) .ok s) := by
  rcases runCMP_cases rel ra rb s with h | ⟨a, b, _, _, _, _, h⟩
  · exact .inl h
  · exact .inr ⟨_, h⟩

/-- Every command ends in one of four ways: a failed validation, its `D` register, its `S` register, or CF (R71 to R74). -/
theorem exec_cases (i : Instr) (s : State) :
    exec i s = .next (completeInvalid s) ∨
    (∃ d v ec, destD i = some d ∧ exec i s = .next (completeWith (.dreg d (pack v)) ec s) ∧ isComparison i = false) ∨
    (∃ d v ec, destS i = some d ∧ exec i s = .next (completeWith (.sreg d v) ec s) ∧ isComparison i = false) ∨
    (∃ b, isComparison i = true ∧ exec i s = .next (completeWith (.cf b) .ok s)) := by
  cases i with
  | dadd rd ra rb | dsub rd ra rb | dmul rd ra rb | ddiv rd ra rb =>
    rcases runDDD_cases _ rd ra rb s with h | ⟨d, a, b, hd, ha, hb, _, _, h⟩
    · exact .inl h
    · exact .inr (.inl ⟨d, _, _, hd, h, rfl⟩)
  | dlt ra rb => exact (comparison_cases relDlt ra rb s).imp id fun ⟨b, h⟩ => .inr (.inr ⟨b, rfl, h⟩)
  | dle ra rb => exact (comparison_cases relDle ra rb s).imp id fun ⟨b, h⟩ => .inr (.inr ⟨b, rfl, h⟩)
  | dgt ra rb => exact (comparison_cases relDgt ra rb s).imp id fun ⟨b, h⟩ => .inr (.inr ⟨b, rfl, h⟩)
  | dge ra rb => exact (comparison_cases relDge ra rb s).imp id fun ⟨b, h⟩ => .inr (.inr ⟨b, rfl, h⟩)
  | deq ra rb => exact (comparison_cases relDeq ra rb s).imp id fun ⟨b, h⟩ => .inr (.inr ⟨b, rfl, h⟩)
  | dne ra rb => exact (comparison_cases relDne ra rb s).imp id fun ⟨b, h⟩ => .inr (.inr ⟨b, rfl, h⟩)
  | dtrunc rd ra | dround rd ra | dfloor rd ra | dneg rd ra =>
    rcases runDD_cases _ rd ra s with h | ⟨d, a, hd, ha, _, h⟩
    · exact .inl h
    · exact .inr (.inl ⟨d, _, _, hd, h, rfl⟩)
  | i2d rd ra | f2d rd ra =>
    rcases runDS_cases _ rd ra s with h | ⟨d, a, hd, ha, h⟩
    · exact .inl h
    · exact .inr (.inl ⟨d, _, _, hd, h, rfl⟩)
  | d2i rd ra | d2f rd ra =>
    rcases runSD_cases _ rd ra s with h | ⟨d, a, hd, ha, _, h⟩
    · exact .inl h
    · exact .inr (.inr (.inl ⟨d, _, _, hd, h, rfl⟩))

/-- Every command completes by `completeWith` (R72, R220). -/
theorem exec_completes (i : Instr) (s : State) : ∃ w ec, exec i s = .next (completeWith w ec s) := by
  rcases exec_cases i s with h | ⟨d, v, ec, _, h, _⟩ | ⟨d, v, ec, _, h, _⟩ | ⟨b, _, h⟩
  · exact ⟨_, _, h⟩
  · exact ⟨_, _, h⟩
  · exact ⟨_, _, h⟩
  · exact ⟨_, _, h⟩

/-- A step with a due completion completes (R72). -/
theorem step_of_due (s : State) (c : Word) (h : dueWord s = some c) : ∃ w ec, step s = .next (completeWith w ec s) := by
  simp only [step, h]
  split
  · exact exec_completes _ _
  · exact ⟨_, _, rfl⟩

/-- A step with none due is the host's turn (R51). -/
theorem step_of_not_due (s : State) (h : dueWord s = none) : step s = hostTurn s := by simp only [step, h]

end Sys2Proof.Machine
end

