-- ==== Sys2Proof/Laws/Flags.lean ====
section
/-! SUPPORT. What a completion and a host write do to STATUS, field by field. -/

namespace Sys2Proof.Machine

@[simp] theorem finishStatus_ec (ec : ErrorCode) (st : Status) : (finishStatus ec st).ec = ec := rfl
@[simp] theorem finishStatus_cf (ec : ErrorCode) (st : Status) : (finishStatus ec st).cf = st.cf := rfl
@[simp] theorem finishStatus_es (ec : ErrorCode) (st : Status) : (finishStatus ec st).es = (st.es || ec != .ok) := rfl
@[simp] theorem finishStatus_pv (ec : ErrorCode) (st : Status) : (finishStatus ec st).pv = st.pv := rfl
@[simp] theorem clearSticky_ec (v : Word) (st : Status) : (clearSticky v st).ec = st.ec := rfl
@[simp] theorem clearSticky_cf (v : Word) (st : Status) : (clearSticky v st).cf = st.cf := rfl
@[simp] theorem clearSticky_es (v : Word) (st : Status) : (clearSticky v st).es = (st.es && !v.getLsbD 4) := rfl
@[simp] theorem clearSticky_pv (v : Word) (st : Status) : (clearSticky v st).pv = (st.pv && !v.getLsbD 5) := rfl

/-- The five codes have five values, none above 4 (R221, R35). -/
theorem ecCode_le (ec : ErrorCode) : (ecCode ec).toNat ≤ 4 := by cases ec <;> decide

theorem ecCode_injective (e1 e2 : ErrorCode) (h : ecCode e1 = ecCode e2) : e1 = e2 := by
  revert h; cases e1 <;> cases e2 <;> decide

end Sys2Proof.Machine
end

