-- ==== Sys2Proof/Laws/Float.lean ====
section
/-! SUPPORT. What the exact fractions and the float rounding give as rationals (R11, R12). -/

namespace Sys2Proof.Machine

/-- The rational a fraction denotes. -/
def fracValue (x : Frac) : ℚ := (x.num : ℚ) / x.den

theorem zpow_toNat_div (b : ℚ) (e : Int) : b ^ e.toNat / b ^ (-e).toNat = b ^ e := by
  rcases le_total 0 e with h | h
  · lift e to ℕ using h
    simp
  · obtain ⟨n, rfl⟩ : ∃ n : ℕ, e = -(n : ℤ) := ⟨(-e).toNat, by omega⟩
    simp

@[simp] theorem fracValue_scale2 (x : Frac) (e : Int) : fracValue (fracScale2 x e) = fracValue x * (2 : ℚ) ^ e := by
  rw [← zpow_toNat_div 2 e]
  simp only [fracValue, fracScale2, Nat.cast_mul, Nat.cast_pow, Nat.cast_ofNat, mul_div_mul_comm]

@[simp] theorem fracValue_scale10 (x : Frac) (e : Int) : fracValue (fracScale10 x e) = fracValue x * (10 : ℚ) ^ e := by
  rw [← zpow_toNat_div 10 e]
  simp only [fracValue, fracScale10, Nat.cast_mul, Nat.cast_pow, Nat.cast_ofNat, mul_div_mul_comm]

theorem fracScale2_den_pos (x : Frac) (e : Int) (h : 0 < x.den) : 0 < (fracScale2 x e).den := by
  simp only [fracScale2]; positivity

theorem fracScale10_den_pos (x : Frac) (e : Int) (h : 0 < x.den) : 0 < (fracScale10 x e).den := by
  simp only [fracScale10]; positivity

theorem fracLtNat_iff (x : Frac) (n : Nat) (h : 0 < x.den) : fracLtNat x n = true ↔ fracValue x < n := by
  have hd : (0 : ℚ) < x.den := by exact_mod_cast h
  rw [fracValue, div_lt_iff₀ hd]
  simp only [fracLtNat, decide_eq_true_eq]
  exact_mod_cast Iff.rfl

/-- `rhe` is the nearest integer, a tie going to the even one (R12). -/
theorem rhe_nearestEven (x : Frac) (h : 0 < x.den) : nearestEven (rhe x) (fracValue x) := by
  have hd : (0 : ℚ) < x.den := by exact_mod_cast h
  have hr : x.num % x.den < x.den := Nat.mod_lt _ h
  have hv : fracValue x = (x.num / x.den : ℕ) + ((x.num % x.den : ℕ) : ℚ) / x.den := by
    have := Nat.div_add_mod x.num x.den
    rw [fracValue, div_eq_iff hd.ne', add_mul, div_mul_cancel₀ _ hd.ne', mul_comm]
    exact_mod_cast this.symm
  have hx : fracValue x - (x.num / x.den : ℕ) = ((x.num % x.den : ℕ) : ℚ) / x.den := by rw [hv]; ring
  have h0 : (0 : ℚ) ≤ ((x.num % x.den : ℕ) : ℚ) / x.den := by positivity
  have h1 : ((x.num % x.den : ℕ) : ℚ) / x.den < 1 := by rw [div_lt_one hd]; exact_mod_cast hr
  unfold rhe
  split
  · next hup =>
    have half : (1 : ℚ) / 2 ≤ ((x.num % x.den : ℕ) : ℚ) / x.den := by
      rw [div_le_div_iff₀ (by norm_num) hd]
      have : x.den ≤ x.num % x.den * 2 := by omega
      rw [one_mul]; exact_mod_cast this
    have hy : fracValue x - ((x.num / x.den + 1 : ℕ) : ℚ) = ((x.num % x.den : ℕ) : ℚ) / x.den - 1 := by
      push_cast; rw [← hx]; ring
    rw [nearestEven, hy, abs_of_neg (by linarith)]
    refine ⟨by linarith, fun ht => ?_⟩
    have htie : ((x.num % x.den : ℕ) : ℚ) / x.den = 1 / 2 := by linarith
    rw [div_eq_div_iff hd.ne' (by norm_num), one_mul] at htie
    have : x.num % x.den * 2 = x.den := by exact_mod_cast htie
    omega
  · next hdown =>
    have half : ((x.num % x.den : ℕ) : ℚ) / x.den ≤ 1 / 2 := by
      rw [div_le_div_iff₀ hd (by norm_num)]
      have : x.num % x.den * 2 ≤ x.den := by omega
      rw [one_mul]; exact_mod_cast this
    rw [nearestEven, hx, abs_of_nonneg h0]
    refine ⟨half, fun ht => ?_⟩
    rw [div_eq_div_iff hd.ne' (by norm_num), one_mul] at ht
    have : x.num % x.den * 2 = x.den := by exact_mod_cast ht
    omega

/-- `floorLog2` is the binade of a positive fraction. -/
theorem floorLog2_bounds (x : Frac) (hn : 0 < x.num) (hd : 0 < x.den) :
    (2 : ℚ) ^ floorLog2 x ≤ fracValue x ∧ fracValue x < (2 : ℚ) ^ (floorLog2 x + 1) := by
  have hd' : (0 : ℚ) < x.den := by exact_mod_cast hd
  have hn1 : (2 : ℚ) ^ (Nat.log2 x.num : ℤ) ≤ x.num := by
    rw [zpow_natCast]; exact_mod_cast Nat.log2_self_le hn.ne'
  have hn2 : (x.num : ℚ) < (2 : ℚ) ^ ((Nat.log2 x.num : ℤ) + 1) := by
    rw [← Nat.cast_succ, zpow_natCast]; exact_mod_cast Nat.lt_log2_self
  have hd1 : (2 : ℚ) ^ (Nat.log2 x.den : ℤ) ≤ x.den := by
    rw [zpow_natCast]; exact_mod_cast Nat.log2_self_le hd.ne'
  have hd2 : (x.den : ℚ) < (2 : ℚ) ^ ((Nat.log2 x.den : ℤ) + 1) := by
    rw [← Nat.cast_succ, zpow_natCast]; exact_mod_cast Nat.lt_log2_self
  have hlow : (2 : ℚ) ^ ((Nat.log2 x.num : ℤ) - (Nat.log2 x.den : ℤ) - 1) < fracValue x := by
    rw [fracValue, lt_div_iff₀ hd']
    calc _ < (2 : ℚ) ^ ((Nat.log2 x.num : ℤ) - (Nat.log2 x.den : ℤ) - 1) * (2 : ℚ) ^ ((Nat.log2 x.den : ℤ) + 1) := by gcongr
      _ = (2 : ℚ) ^ (Nat.log2 x.num : ℤ) := by rw [← zpow_add₀ (by norm_num)]; congr 1; ring
      _ ≤ _ := hn1
  have hhigh : fracValue x < (2 : ℚ) ^ ((Nat.log2 x.num : ℤ) - (Nat.log2 x.den : ℤ) + 1) := by
    rw [fracValue, div_lt_iff₀ hd']
    calc _ < (2 : ℚ) ^ ((Nat.log2 x.num : ℤ) + 1) := hn2
      _ = (2 : ℚ) ^ ((Nat.log2 x.num : ℤ) - (Nat.log2 x.den : ℤ) + 1) * (2 : ℚ) ^ (Nat.log2 x.den : ℤ) := by
        rw [← zpow_add₀ (by norm_num)]; congr 1; ring
      _ ≤ _ := by gcongr
  generalize hl : (Nat.log2 x.num : ℤ) - (Nat.log2 x.den : ℤ) = l at hlow hhigh
  have below : fracLtNat (fracScale2 x (-l)) 1 = true ↔ fracValue x < (2 : ℚ) ^ l := by
    rw [fracLtNat_iff _ _ (fracScale2_den_pos _ _ hd), fracValue_scale2, zpow_neg, mul_inv_lt_iff₀ (by positivity)]
    simp
  simp only [floorLog2, hl]
  split
  · next h => exact ⟨hlow.le, by simpa using below.mp h⟩
  · next h => exact ⟨not_lt.mp (fun hlt => h (below.mpr hlt)), hhigh⟩

/-- `roundFloat` rounds to nearest even in the binade of the fraction (R11). -/
theorem roundFloat_roundsTo (prec : Nat) (emin : Int) (x : Frac) (hp : 0 < prec) (hd : 0 < x.den) :
    roundsTo prec emin (fracValue x) (((roundFloat prec emin x).sig : ℚ) * (2 : ℚ) ^ (roundFloat prec emin x).exp) := by
  by_cases hn : x.num = 0
  · refine ⟨0, emin, by simp [roundFloat, hn], le_refl _, ?_, .inl rfl, ?_⟩ <;> simp [fracValue, hn, nearestEven]
  · obtain ⟨hlow, hhigh⟩ := floorLog2_bounds x (Nat.pos_of_ne_zero hn) hd
    refine ⟨(roundFloat prec emin x).sig, (roundFloat prec emin x).exp, rfl, ?_, ?_, ?_, ?_⟩ <;>
      simp only [roundFloat, if_neg hn]
    · exact le_max_right _ _
    · rw [zpow_neg, mul_inv_lt_iff₀ (by positivity), ← zpow_natCast, ← zpow_add₀ (by norm_num)]
      exact hhigh.trans_le (zpow_le_zpow_right₀ (by norm_num) (by omega))
    · rcases le_total (floorLog2 x - ((prec : Int) - 1)) emin with h | h
      · exact .inl (max_eq_right h)
      · right
        rw [max_eq_left h, zpow_neg, le_mul_inv_iff₀ (by positivity), ← zpow_natCast, ← zpow_add₀ (by norm_num)]
        refine le_trans (zpow_le_zpow_right₀ (by norm_num) ?_) hlow
        omega
    · rw [← fracValue_scale2]
      exact rhe_nearestEven _ (fracScale2_den_pos _ _ hd)

theorem floatValue_den_pos (f : BinFloat) : 0 < (floatValue f).den := by
  unfold floatValue
  split
  · exact Nat.one_pos
  · exact fracScale2_den_pos _ _ Nat.one_pos

theorem fracValue_floatValue (f : BinFloat) : fracValue (floatValue f) = (f.sig : ℚ) * (2 : ℚ) ^ f.exp := by
  unfold floatValue
  split
  · next h => simp [fracValue, h]
  · rw [fracValue_scale2]; simp [fracValue]

/-- `fl64` is binary64's nearest-even rounding below its overflow bound (R11). -/
theorem fl64_roundsTo (x : Frac) (hd : 0 < x.den) : roundsTo 53 (-1074) (fracValue x) (fracValue (fl64 x)) := by
  rw [fl64, fracValue_floatValue]
  exact roundFloat_roundsTo 53 _ x (by norm_num) hd

/-- `fl32` is binary32's nearest-even rounding, before it is packed (R11). -/
theorem fl32_roundsTo (x : Frac) (hd : 0 < x.den) :
    roundsTo 24 (-149) (fracValue x) (((fl32 x).sig : ℚ) * (2 : ℚ) ^ (fl32 x).exp) :=
  roundFloat_roundsTo 24 _ x (by norm_num) hd

end Sys2Proof.Machine
end

