-- ==== Sys2Proof/Laws/PerInstr.lean ====
section
/-! SUPPORT. Per-command statements: the fields of every command's word. -/

namespace Sys2Proof.Laws

/-- A command word as a number (R68). -/
theorem toNat_wordOf (rb ra rd : RegField) (o : BitVec 8) :
    (wordOf rb ra rd o).toNat = rb.toNat * 2 ^ 16 + ra.toNat * 2 ^ 12 + rd.toNat * 2 ^ 8 + o.toNat := by
  have h1 := rb.isLt
  have h2 := ra.isLt
  have h3 := rd.isLt
  have h4 := o.isLt
  rw [wordOf, BitVec.toNat_ofNat]
  omega

/-- Reading any field of a word as a number. -/
theorem toNat_field (c : Word) (lo n : Nat) : (c.extractLsb' lo n).toNat = c.toNat / 2 ^ lo % 2 ^ n := by
  rw [BitVec.extractLsb'_toNat, Nat.shiftRight_eq_div_pow]

theorem fieldTop_wordOf (rb ra rd : RegField) (o : BitVec 8) : fieldTop (wordOf rb ra rd o) = 0#12 := by
  have h1 := rb.isLt
  have h2 := ra.isLt
  have h3 := rd.isLt
  have h4 := o.isLt
  apply BitVec.eq_of_toNat_eq
  rw [fieldTop, toNat_field, toNat_wordOf]
  simp only [BitVec.toNat_zero]
  omega

theorem fieldOpc_wordOf (rb ra rd : RegField) (o : BitVec 8) : fieldOpc (wordOf rb ra rd o) = o := by
  have h1 := rb.isLt
  have h2 := ra.isLt
  have h3 := rd.isLt
  have h4 := o.isLt
  apply BitVec.eq_of_toNat_eq
  rw [fieldOpc, toNat_field, toNat_wordOf]
  omega

theorem fieldRd_wordOf (rb ra rd : RegField) (o : BitVec 8) : fieldRd (wordOf rb ra rd o) = rd := by
  have h1 := rb.isLt
  have h2 := ra.isLt
  have h3 := rd.isLt
  have h4 := o.isLt
  apply BitVec.eq_of_toNat_eq
  rw [fieldRd, toNat_field, toNat_wordOf]
  omega

theorem fieldRa_wordOf (rb ra rd : RegField) (o : BitVec 8) : fieldRa (wordOf rb ra rd o) = ra := by
  have h1 := rb.isLt
  have h2 := ra.isLt
  have h3 := rd.isLt
  have h4 := o.isLt
  apply BitVec.eq_of_toNat_eq
  rw [fieldRa, toNat_field, toNat_wordOf]
  omega

theorem fieldRb_wordOf (rb ra rd : RegField) (o : BitVec 8) : fieldRb (wordOf rb ra rd o) = rb := by
  have h1 := rb.isLt
  have h2 := ra.isLt
  have h3 := rd.isLt
  have h4 := o.isLt
  apply BitVec.eq_of_toNat_eq
  rw [fieldRb, toNat_field, toNat_wordOf]
  omega

/-- The fields RB, RA, RD and OPC a command's word shows (R62, R64). -/
def shownFields : Instr → RegField × RegField × RegField × BitVec 8
  | .dadd rd ra rb => (rb, ra, rd, 0x01#8)
  | .dsub rd ra rb => (rb, ra, rd, 0x02#8)
  | .dmul rd ra rb => (rb, ra, rd, 0x03#8)
  | .ddiv rd ra rb => (rb, ra, rd, 0x04#8)
  | .dlt ra rb => (rb, ra, 0#4, 0x10#8)
  | .dle ra rb => (rb, ra, 0#4, 0x11#8)
  | .dgt ra rb => (rb, ra, 0#4, 0x12#8)
  | .dge ra rb => (rb, ra, 0#4, 0x13#8)
  | .deq ra rb => (rb, ra, 0#4, 0x14#8)
  | .dne ra rb => (rb, ra, 0#4, 0x15#8)
  | .dtrunc rd ra => (0#4, ra, rd, 0x20#8)
  | .dround rd ra => (0#4, ra, rd, 0x21#8)
  | .dfloor rd ra => (0#4, ra, rd, 0x22#8)
  | .dneg rd ra => (0#4, ra, rd, 0x23#8)
  | .i2d rd ra => (0#4, ra, rd, 0x30#8)
  | .f2d rd ra => (0#4, ra, rd, 0x31#8)
  | .d2i rd ra => (0#4, ra, rd, 0x32#8)
  | .d2f rd ra => (0#4, ra, rd, 0x33#8)

theorem fields_wordOf (rb ra rd : RegField) (o : BitVec 8) :
    fieldTop (wordOf rb ra rd o) = 0#12 ∧
      (fieldRb (wordOf rb ra rd o), fieldRa (wordOf rb ra rd o), fieldRd (wordOf rb ra rd o), fieldOpc (wordOf rb ra rd o)) =
        (rb, ra, rd, o) := by
  rw [fieldTop_wordOf, fieldRb_wordOf, fieldRa_wordOf, fieldRd_wordOf, fieldOpc_wordOf]
  exact ⟨rfl, rfl⟩

namespace EncodedFields

/-- The word of a command shows its fields, its opcode and zeros above bit 19 (R60, R62, R64). -/
def Statement (i : Instr) : Prop :=
  fieldTop (encode i) = 0#12 ∧
    (fieldRb (encode i), fieldRa (encode i), fieldRd (encode i), fieldOpc (encode i)) = shownFields i

theorem dadd (rd ra rb : RegField) : Statement (.dadd rd ra rb) := fields_wordOf rb ra rd _
theorem dsub (rd ra rb : RegField) : Statement (.dsub rd ra rb) := fields_wordOf rb ra rd _
theorem dmul (rd ra rb : RegField) : Statement (.dmul rd ra rb) := fields_wordOf rb ra rd _
theorem ddiv (rd ra rb : RegField) : Statement (.ddiv rd ra rb) := fields_wordOf rb ra rd _
theorem dlt (ra rb : RegField) : Statement (.dlt ra rb) := fields_wordOf rb ra 0#4 _
theorem dle (ra rb : RegField) : Statement (.dle ra rb) := fields_wordOf rb ra 0#4 _
theorem dgt (ra rb : RegField) : Statement (.dgt ra rb) := fields_wordOf rb ra 0#4 _
theorem dge (ra rb : RegField) : Statement (.dge ra rb) := fields_wordOf rb ra 0#4 _
theorem deq (ra rb : RegField) : Statement (.deq ra rb) := fields_wordOf rb ra 0#4 _
theorem dne (ra rb : RegField) : Statement (.dne ra rb) := fields_wordOf rb ra 0#4 _
theorem dtrunc (rd ra : RegField) : Statement (.dtrunc rd ra) := fields_wordOf 0#4 ra rd _
theorem dround (rd ra : RegField) : Statement (.dround rd ra) := fields_wordOf 0#4 ra rd _
theorem dfloor (rd ra : RegField) : Statement (.dfloor rd ra) := fields_wordOf 0#4 ra rd _
theorem dneg (rd ra : RegField) : Statement (.dneg rd ra) := fields_wordOf 0#4 ra rd _
theorem i2d (rd ra : RegField) : Statement (.i2d rd ra) := fields_wordOf 0#4 ra rd _
theorem f2d (rd ra : RegField) : Statement (.f2d rd ra) := fields_wordOf 0#4 ra rd _
theorem d2i (rd ra : RegField) : Statement (.d2i rd ra) := fields_wordOf 0#4 ra rd _
theorem d2f (rd ra : RegField) : Statement (.d2f rd ra) := fields_wordOf 0#4 ra rd _

end EncodedFields

end Sys2Proof.Laws
end

