-- ==== Sys2Proof/Laws/Window.lean ====
section
/-! SUPPORT. What stands at each offset of the register window, and what a host move keeps. -/

namespace Sys2Proof.Machine

theorem windowReg_dword (n : Fin 8) (k : Fin 4) : windowReg (0x10 * (n : Nat) + 4 * (k : Nat)) = .dword n k := by
  unfold windowReg
  rw [dif_pos (by omega)]
  simp only [WindowReg.dword.injEq]
  constructor <;> apply Fin.ext <;> simp only <;> omega

theorem windowReg_sreg (n : Fin 8) : windowReg (0x80 + 4 * (n : Nat)) = .sreg n := by
  unfold windowReg
  rw [dif_neg (by omega), dif_pos (by omega)]
  simp only [WindowReg.sreg.injEq]
  apply Fin.ext
  simp only
  omega

theorem windowReg_reserved (off : Nat) (h : 0xA8 ≤ off) : windowReg off = .reserved := by
  unfold windowReg
  rw [dif_neg (by omega), dif_neg (by omega), if_neg (by omega), if_neg (by omega)]

/-- Every word offset of the window is one of these (R41). -/
theorem window_offsets (off : Nat) (h : off < 256) (h4 : off % 4 = 0) :
    (∃ n : Fin 8, ∃ k : Fin 4, off = 0x10 * (n : Nat) + 4 * (k : Nat)) ∨ (∃ n : Fin 8, off = 0x80 + 4 * (n : Nat)) ∨
      off = 0xA0 ∨ off = 0xA4 ∨ 0xA8 ≤ off := by
  by_cases h1 : off < 0x80
  · exact .inl ⟨⟨off / 16, by omega⟩, ⟨off % 16 / 4, by omega⟩, by simp only; omega⟩
  · by_cases h2 : off < 0xA0
    · exact .inr (.inl ⟨⟨(off - 0x80) / 4, by omega⟩, by simp only; omega⟩)
    · omega

/-- A host write keeps the host's own fields (R59). -/
theorem windowWrite_host (off : Nat) (v : Word) (s : State) :
    (windowWrite off v s).script = s.script ∧ (windowWrite off v s).hpc = s.hpc ∧ (windowWrite off v s).st = s.st ∧
      (windowWrite off v s).replies = s.replies := by
  unfold windowWrite writeReg
  split <;> (try split) <;> exact ⟨rfl, rfl, rfl, rfl⟩

end Sys2Proof.Machine
end

