-- ==== Sys2Proof/Tests/Slice0.lean ====
section
/-! SUPPORT. Tests: the well-formedness smoke test, the decoder on words written out bit by bit, one step per command against the vectors
of 95_test_vectors.md, and for every statement with hypotheses a state that meets them. -/

namespace Sys2Proof.Tests

open Sys2Proof.Machine

/-- A reset state with two decimal operands in `D[0]` and `D[1]`. -/
def ctx (a b : Dec) : State := { State.reset with regs := writeD (writeD State.reset.regs 0 (pack a)) 1 (pack b) }

/-- A reset state with raw words in `D[1]` and 1 in `D[0]`. -/
def ctxRaw (r : DReg) : State := { State.reset with regs := writeD (writeD State.reset.regs 0 (pack ⟨1, 0, false⟩)) 1 r }

/-- A reset state with a scalar operand in `S[0]`. -/
def ctxS (x : Word) : State := { State.reset with regs := writeS State.reset.regs 0 x }

/-- The state after one step that runs a command word. -/
def run1 (s : State) (w : Nat) : Option State :=
  match step (s.withFetchWord 32 w) with
  | .next t => some t
  | .fault _ => none
  | .refused _ => none

/-- The words of `D[n]` and STATUS after that step. -/
def seeD (s : State) (w : Nat) (n : Fin 8) : Option (DReg × Word) :=
  (run1 s w).map fun t => (readD t.regs n, statusWord t.status t.busy)

/-- `S[n]` and STATUS after that step. -/
def seeS (s : State) (w : Nat) (n : Fin 8) : Option (Word × Word) :=
  (run1 s w).map fun t => (readS t.regs n, statusWord t.status t.busy)

/-- STATUS after that step. -/
def seeStatus (s : State) (w : Nat) : Option Word := (run1 s w).map fun t => statusWord t.status t.busy

/-! ### Well-formedness refuses a register field of 8..15 in every place (R61) -/

theorem test_wellFormed_refuses_ddd :
    [Instr.dadd 8 0 0, .dadd 0 8 0, .dadd 0 0 8, .dsub 8 0 0, .dsub 0 8 0, .dsub 0 0 8, .dmul 15 0 0, .dmul 0 15 0, .dmul 0 0 15,
     .ddiv 9 0 0, .ddiv 0 9 0, .ddiv 0 0 9].all (fun i => !i.WellFormed) = true := by decide

theorem test_wellFormed_refuses_cmp :
    [Instr.dlt 8 0, .dlt 0 8, .dle 8 0, .dle 0 8, .dgt 8 0, .dgt 0 8, .dge 8 0, .dge 0 8, .deq 8 0, .deq 0 8, .dne 8 0, .dne 0 8].all
      (fun i => !i.WellFormed) = true := by decide

theorem test_wellFormed_refuses_unary :
    [Instr.dtrunc 8 0, .dtrunc 0 8, .dround 8 0, .dround 0 8, .dfloor 8 0, .dfloor 0 8, .dneg 8 0, .dneg 0 8, .i2d 8 0, .i2d 0 8,
     .f2d 8 0, .f2d 0 8, .d2i 8 0, .d2i 0 8, .d2f 8 0, .d2f 0 8].all (fun i => !i.WellFormed) = true := by decide

theorem test_wellFormed_admits_boundary :
    [Instr.dadd 7 7 7, .dsub 7 0 7, .dmul 0 7 0, .ddiv 7 7 0, .dlt 7 7, .dne 0 7, .dneg 7 7, .i2d 7 0, .d2f 0 7].all
      (fun i => i.WellFormed) = true := by decide

/-! ### Decoding: reserved 31:20, RB, RA, RD, OPC, written out from R60, R64 and R68 -/

theorem test_decode_dadd : (decode 0b000000000000_0001_0000_0010_00000001#32).toOption = some (.dadd 2 0 1) := by decide
theorem test_decode_dsub : (decode 0b000000000000_0111_0101_0011_00000010#32).toOption = some (.dsub 3 5 7) := by decide
theorem test_decode_dmul : (decode 0b000000000000_0101_0110_0111_00000011#32).toOption = some (.dmul 7 6 5) := by decide
theorem test_decode_ddiv : (decode 0b000000000000_0100_0010_0001_00000100#32).toOption = some (.ddiv 1 2 4) := by decide
theorem test_decode_dlt : (decode 0b000000000000_0100_0011_0000_00010000#32).toOption = some (.dlt 3 4) := by decide
theorem test_decode_dle : (decode 0b000000000000_0001_0000_0000_00010001#32).toOption = some (.dle 0 1) := by decide
theorem test_decode_dgt : (decode 0b000000000000_0000_0111_0000_00010010#32).toOption = some (.dgt 7 0) := by decide
theorem test_decode_dge : (decode 0b000000000000_0010_0001_0000_00010011#32).toOption = some (.dge 1 2) := by decide
theorem test_decode_deq : (decode 0b000000000000_0110_0101_0000_00010100#32).toOption = some (.deq 5 6) := by decide
theorem test_decode_dne : (decode 0b000000000000_0101_0100_0000_00010101#32).toOption = some (.dne 4 5) := by decide
theorem test_decode_dtrunc : (decode 0b000000000000_0000_0000_0001_00100000#32).toOption = some (.dtrunc 1 0) := by decide
theorem test_decode_dround : (decode 0b000000000000_0000_0000_0010_00100001#32).toOption = some (.dround 2 0) := by decide
theorem test_decode_dfloor : (decode 0b000000000000_0000_0001_0011_00100010#32).toOption = some (.dfloor 3 1) := by decide
theorem test_decode_dneg : (decode 0b000000000000_0000_0110_0111_00100011#32).toOption = some (.dneg 7 6) := by decide
theorem test_decode_i2d : (decode 0b000000000000_0000_0000_0001_00110000#32).toOption = some (.i2d 1 0) := by decide
theorem test_decode_f2d : (decode 0b000000000000_0000_0011_0010_00110001#32).toOption = some (.f2d 2 3) := by decide
theorem test_decode_d2i : (decode 0b000000000000_0000_0001_0000_00110010#32).toOption = some (.d2i 0 1) := by decide
theorem test_decode_d2f : (decode 0b000000000000_0000_0110_0101_00110011#32).toOption = some (.d2f 5 6) := by decide

/-- The illegal words of 95_test_vectors.md §3.2. -/
theorem test_decode_refuses :
    [0x00000000#32, 0x00000005#32, 0x00000024#32, 0x000000FF#32, 0x00001000#32, 0x00100001#32, 0x80000001#32, 0x00000801#32,
     0x00008001#32, 0x00080001#32, 0x00000110#32, 0x00010020#32, 0x00010030#32, 0x00010033#32].all
      (fun c => (decode c).toOption == none) = true := by decide

/-- The encodings of R68's examples. -/
theorem test_encode_examples :
    encode (.dadd 2 0 1) = 0x00010201#32 ∧ encode (.dlt 3 4) = 0x00043010#32 ∧ encode (.d2f 5 6) = 0x00006533#32 := by decide

/-! ### One step per command, results from 95_test_vectors.md §2 and §3 -/

theorem test_dadd_carry :
    seeD (ctx ⟨2 ^ 96 - 1, 28, false⟩ ⟨2 ^ 96 - 1, 28, false⟩) 0x00010201 2 =
      some (⟨0x33333333#32, 0x33333333#32, 0x33333333#32, 0x001B0000#32⟩, 0x00#32) := by decide

theorem test_dadd_overflow_small :
    seeD (ctx ⟨2 ^ 96 - 1, 0, true⟩ ⟨1, 0, true⟩) 0x00010201 2 = some (⟨0#32, 0#32, 0#32, 0#32⟩, 0x12#32) := by decide

theorem test_dsub_mixed_scales :
    seeD (ctx ⟨25, 1, false⟩ ⟨7, 0, false⟩) 0x00010202 2 = some (⟨0x2D#32, 0#32, 0#32, 0x80010000#32⟩, 0x00#32) := by decide

theorem test_dsub_negative_zero :
    seeD (ctx ⟨0, 0, true⟩ ⟨0, 0, false⟩) 0x00010202 2 = some (⟨0#32, 0#32, 0#32, 0x80000000#32⟩, 0x00#32) := by decide

theorem test_dmul_full_product :
    seeD (ctx ⟨2 ^ 96 - 1, 28, false⟩ ⟨2 ^ 96 - 1, 28, false⟩) 0x00010203 2 =
      some (⟨0x096EE456#32, 0x359A3B3E#32, 0xCAD2F7F5#32, 0x001B0000#32⟩, 0x00#32) := by decide

theorem test_dmul_iterated_rounding :
    seeD (ctx ⟨451, 28, false⟩ ⟨1, 2, false⟩) 0x00010203 2 = some (⟨4#32, 0#32, 0#32, 0x001C0000#32⟩, 0x00#32) := by decide

theorem test_ddiv_stops_at_scale_27 :
    seeD (ctx ⟨100, 0, false⟩ ⟨3, 0, false⟩) 0x00010204 2 =
      some (⟨0x35555555#32, 0xCF2607EE#32, 0x6BB4AFE4#32, 0x001B0000#32⟩, 0x00#32) := by decide

theorem test_ddiv_divisor_rounded_away :
    seeD (ctx ⟨2 ^ 96 - 1, 0, false⟩ ⟨5, 1, false⟩) 0x00010204 2 = some (⟨0#32, 0#32, 0#32, 0#32⟩, 0x13#32) := by decide

theorem test_dlt_both_negative : seeStatus (ctx ⟨2, 0, true⟩ ⟨1, 0, true⟩) 0x00010010 = some 0x08#32 := by decide

theorem test_dlt_zero_below_positive : seeStatus (ctx ⟨0, 0, false⟩ ⟨1, 4, false⟩) 0x00010010 = some 0x08#32 := by decide

theorem test_dle_zero_signs : seeStatus (ctx ⟨0, 0, false⟩ ⟨0, 0, true⟩) 0x00010011 = some 0x08#32 := by decide

theorem test_dgt_at_the_top : seeStatus (ctx ⟨2 ^ 96 - 1, 0, false⟩ ⟨25, 1, false⟩) 0x00010012 = some 0x08#32 := by decide

theorem test_dge_scales : seeStatus (ctx ⟨15, 1, true⟩ ⟨150, 2, true⟩) 0x00010013 = some 0x08#32 := by decide

theorem test_deq_zero_signs : seeStatus (ctx ⟨0, 0, false⟩ ⟨0, 0, true⟩) 0x00010014 = some 0x00#32 := by decide

theorem test_deq_scales : seeStatus (ctx ⟨15, 1, false⟩ ⟨150, 2, false⟩) 0x00010014 = some 0x08#32 := by decide

theorem test_dne_zero_signs : seeStatus (ctx ⟨0, 0, false⟩ ⟨0, 0, true⟩) 0x00010015 = some 0x08#32 := by decide

theorem test_dtrunc_keeps_sign :
    seeD (ctx ⟨4, 1, true⟩ ⟨0, 0, false⟩) 0x00000120 1 = some (⟨0#32, 0#32, 0#32, 0x80000000#32⟩, 0x00#32) := by decide

theorem test_dround_first_digit_only :
    seeD (ctx ⟨245, 2, false⟩ ⟨0, 0, false⟩) 0x00000221 2 = some (⟨2#32, 0#32, 0#32, 0#32⟩, 0x00#32) := by decide

theorem test_dround_half_away :
    seeD (ctx ⟨5, 1, true⟩ ⟨0, 0, false⟩) 0x00000221 2 = some (⟨1#32, 0#32, 0#32, 0x80000000#32⟩, 0x00#32) := by decide

theorem test_dfloor_steps_down :
    seeD (ctx ⟨0, 0, false⟩ ⟨4, 1, true⟩) 0x00001322 3 = some (⟨1#32, 0#32, 0#32, 0x80000000#32⟩, 0x00#32) := by decide

theorem test_dfloor_exact :
    seeD (ctx ⟨0, 0, false⟩ ⟨20, 1, true⟩) 0x00001322 3 = some (⟨2#32, 0#32, 0#32, 0x80000000#32⟩, 0x00#32) := by decide

theorem test_dneg_in_place :
    seeD (ctx ⟨0, 2, false⟩ ⟨0, 0, false⟩) 0x00000023 0 = some (⟨0#32, 0#32, 0#32, 0x80020000#32⟩, 0x00#32) := by decide

theorem test_i2d_most_negative :
    seeD (ctxS 0x80000000#32) 0x00000130 1 = some (⟨0x80000000#32, 0#32, 0#32, 0x80000000#32⟩, 0x00#32) := by decide

theorem test_f2d_tie_to_even :
    seeD (ctxS 0x4996B444#32) 0x00000331 3 = some (⟨0x0012D688#32, 0#32, 0#32, 0#32⟩, 0x00#32) := by decide

theorem test_f2d_two_to_96 :
    seeD (ctxS 0x6F800000#32) 0x00000331 3 = some (⟨0x20000000#32, 0xB392B21A#32, 0xFFFFFF77#32, 0#32⟩, 0x00#32) := by decide

theorem test_d2i_most_negative :
    seeS (ctx ⟨0, 0, false⟩ ⟨214748364899, 2, true⟩) 0x00001032 0 = some (0x80000000#32, 0x00#32) := by decide

theorem test_d2i_overflow :
    seeS (ctx ⟨0, 0, false⟩ ⟨2147483648, 0, false⟩) 0x00001032 0 = some (0#32, 0x11#32) := by decide

theorem test_d2f_smallest : seeS (ctx ⟨1, 28, false⟩ ⟨0, 0, false⟩) 0x00000033 0 = some (0x10FD87B6#32, 0x00#32) := by decide

theorem test_d2f_negative_zero : seeS (ctx ⟨0, 0, true⟩ ⟨0, 0, false⟩) 0x00000033 0 = some (0x80000000#32, 0x00#32) := by decide

/-- An ill-formed operand (§3.3, `w3 = 0x001D0000`): STATUS 0x14 and `D[2]` not written. -/
theorem test_ill_formed_operand :
    seeD (ctxRaw ⟨5#32, 0#32, 0#32, 0x001D0000#32⟩) 0x00010201 2 = some (⟨0#32, 0#32, 0#32, 0#32⟩, 0x14#32) := by decide

/-- An illegal word (§3.2) keeps CF: STATUS reads 0x1C. -/
theorem test_illegal_word_keeps_cf :
    seeStatus { State.reset with status := ⟨.ok, true, false, false⟩ } 0x00000005 = some 0x1C#32 := by decide

/-- §3.4: `DADD D0, D0, D0` of 1.5 doubles `D[0]`. -/
theorem test_aliasing :
    seeD (ctx ⟨15, 1, false⟩ ⟨0, 0, false⟩) 0x00000001 0 = some (⟨30#32, 0#32, 0#32, 0x00010000#32⟩, 0x00#32) := by decide

/-- §3.5: STATUS 0x3B, then `MemWrite(0xA4, 4, 0x10)` leaves 0x2B. -/
theorem test_status_clear_es :
    windowRead 0xA4 (windowWrite 0xA4 0x10#32 { State.reset with status := ⟨.divisionByZero, true, true, true⟩ }) = 0x2B#32 := by decide

/-- §3.5: `S[7]` at offset 0x9C. -/
theorem test_window_s7 : windowRead 0x9C (windowWrite 0x9C 0xDEADBEEF#32 State.reset) = 0xDEADBEEF#32 := by decide

/-- §3.5: a write to `D[0].w0` with a command in flight is ignored and sets PV; STATUS reads BUSY and PV. -/
theorem test_busy_write :
    windowRead 0x00 (windowWrite 0x00 7#32 (latchCommand 1 0x00010201#32 (ctx ⟨15, 1, false⟩ ⟨2, 0, false⟩))) = 15#32 ∧
      windowRead 0xA4 (windowWrite 0x00 7#32 (latchCommand 1 0x00010201#32 (ctx ⟨15, 1, false⟩ ⟨2, 0, false⟩))) = 0x120#32 := by decide

/-- R106's flag, R100's ignored scale and R102's order. -/
theorem test_primitives :
    shiftLeft (2 ^ 95) 1 = (0, true) ∧ shiftLeft 3 2 = (12, false) ∧ setScale ⟨1, 2, false⟩ 29 = ⟨1, 2, false⟩ ∧
      setScale ⟨1, 2, false⟩ 28 = ⟨1, 28, false⟩ ∧ compareMagnitude 2 3 = -1 := by decide

/-- R104's boundary and R110's examples. -/
theorem test_datapath :
    mulByTen 7922816251426433759354395033 = (79228162514264337593543950330, true) ∧
      mulByTen 7922816251426433759354395034 = (7922816251426433759354395034, false) ∧
      align ⟨2 ^ 96 - 1, 0⟩ ⟨15, 1⟩ = (⟨2 ^ 96 - 1, 0⟩, ⟨2, 0⟩) ∧ align ⟨25, 2⟩ ⟨2 ^ 96 - 1, 0⟩ = (⟨0, 0⟩, ⟨2 ^ 96 - 1, 0⟩) := by decide

/-! ### Witnesses: for every statement with hypotheses, a state and operands that meet them -/

/-- `DADD D2, D0, D1` of 1.5 and 2, due at once. -/
def dueState : State := latchCommand 0 0x00010201#32 (ctx ⟨15, 1, false⟩ ⟨2, 0, false⟩)

/-- The same command with three host turns left and a script of contract moves that goes on. -/
def busyState : State :=
  { latchCommand 3 0x00010201#32 (ctx ⟨15, 1, false⟩ ⟨2, 0, false⟩) with
    script := [memWrite 0x00 7#32, .wait, memRead 0x20, .halt] }

/-- An idle state whose host has a given next move. -/
def idleWith (op : HostOp) : State := { State.reset with script := [op] }

theorem witness_DecodeEncodeRoundTrip : (Instr.ddiv 7 7 7).WellFormed = true ∧ (Instr.d2f 0 7).WellFormed = true := by decide

theorem witness_DecodedWordIsItsEncoding : decode 0x00077704#32 = .ok (.ddiv 7 7 7) := rfl

theorem witness_DecoderAcceptsExactlyLegalWords : legalWord 0x00077704#32 ∧ ¬ legalWord 0x00000005#32 := by decide

theorem witness_StepRunsDueCommand :
    (∃ l i, completionDue dueState l ∧ decode l.word = .ok i) ∧
    (∃ l e, completionDue (latchCommand 0 0x5#32 State.reset) l ∧ decode l.word = .error e) ∧
    (∀ l, ¬ completionDue busyState l) ∧ (∀ l, ¬ completionDue State.reset l) ∧
    decodeTableWord 32 0x00010201 = some (.dadd 2 0 1) := by
  refine ⟨⟨_, _, ⟨rfl, .inl rfl⟩, rfl⟩, ⟨_, _, ⟨rfl, .inl rfl⟩, rfl⟩, ?_, ?_, by decide⟩
  · rw [not_completionDue_iff]; rfl
  · rw [not_completionDue_iff]; rfl

theorem witness_IllegalWordCompletesInvalid :
    ∃ l, completionDue (latchCommand 0 0x00100001#32 State.reset) l ∧ ¬ legalWord l.word :=
  ⟨⟨0x00100001#32, State.reset.regs, 0⟩, ⟨rfl, .inl rfl⟩, by decide⟩

theorem witness_StepKeepsLatchMatchingRegisters :
    latchMatches busyState ∧ (∃ l, busyState.latch = some l) ∧ (∃ t, step busyState = .next t) ∧
      latchMatches dueState ∧ ∃ t, step dueState = .next t := by
  have in_contract : step busyState = hostMove (memWrite 0x00 7#32) (tick busyState) := rfl
  refine ⟨?_, ⟨_, rfl⟩, ?_, ?_, ⟨_, rfl⟩⟩
  · intro l hl; cases hl; exact ⟨rfl, rfl⟩
  · rw [in_contract]
    simp only [memWrite, hostMove, windowOffset_inside 0x00 (by omega) (by omega)]
    exact ⟨_, rfl⟩
  · intro l hl; cases hl; exact ⟨rfl, rfl⟩

theorem witness_ContractScriptNeverStops : scriptInContract busyState ∧ busyState.script ≠ [] := by
  refine ⟨?_, by simp [busyState]⟩
  intro op h
  simp only [busyState, List.mem_cons, List.not_mem_nil, or_false] at h
  rcases h with rfl | rfl | rfl | rfl
  · exact ⟨rfl, 0x00, rfl, by decide, by decide⟩
  · trivial
  · exact ⟨rfl, 0x20, rfl, by decide, by decide⟩
  · trivial

theorem witness_AcceptedCommandCompletesInTime :
    (∃ l, busyState.latch = some l ∧ l.wait = 3) ∧ scriptInContract busyState :=
  ⟨⟨_, rfl, rfl⟩, witness_ContractScriptNeverStops.1⟩

theorem witness_EveryDueCommandCompletes : ∃ l, completionDue dueState l := ⟨_, rfl, .inl rfl⟩

theorem witness_ProducedDecimalsAreWellFormed :
    ∃ t, exec (.dadd 2 0 1) dueState = .next t ∧ readD t.regs 2 ≠ readD dueState.regs 2 := ⟨_, rfl, by decide⟩

theorem witness_CommandFrame :
    (∃ t, exec (.dadd 2 0 1) dueState = .next t) ∧ destD (.dadd 2 0 1) ≠ some 3 ∧ destS (.d2i 2 0) ≠ some 3 ∧
      isComparison (.d2i 2 0) = false := ⟨⟨_, rfl⟩, by decide, by decide, by decide⟩

theorem witness_IllFormedOperandIsInvalid :
    (Instr.dadd 2 0 1).WellFormed = true ∧ (1#4 : RegField) ∈ decimalSources (.dadd 2 0 1) ∧ regIndex 1#4 = some 1 ∧
      ¬ operandOk (ctxRaw ⟨5#32, 0#32, 0#32, 0x001D0000#32⟩) 1 ∧ ¬ operandOk (ctxRaw ⟨5#32, 0#32, 0#32, 0x40000000#32⟩) 1 ∧
      operandOk (ctxRaw ⟨5#32, 0#32, 0#32, 0x801C0000#32⟩) 1 := by decide

theorem witness_UnnamedRegisterIsInvalid : (Instr.i2d 8 0).WellFormed = false := by decide

theorem witness_HostMovesKeepResults :
    (∀ l, ¬ completionDue busyState l) ∧ hostNext busyState ≠ some .reset ∧ (∃ t, step busyState = .next t) ∧ busyState.busy = true := by
  refine ⟨?_, ?_, witness_StepKeepsLatchMatchingRegisters.2.2.1, rfl⟩
  · rw [not_completionDue_iff]; rfl
  · intro h; cases h

/-- A state with both sticky bits set and a poll to come. -/
def stickyState : State := { State.reset with status := ⟨.ok, false, true, true⟩, script := [.readStatus] }

theorem witness_StickyBitsHold :
    (∃ t, step stickyState = .next t) ∧ hostNext stickyState ≠ some .reset ∧
      (∀ v, hostNext stickyState ≠ some (memWrite 0xA4 v)) ∧ stickyState.status.es = true ∧ stickyState.status.pv = true := by
  refine ⟨⟨_, rfl⟩, by decide, ?_, rfl, rfl⟩
  intro v h
  cases h

theorem witness_DaddFollowsRule :
    operandOk (ctx ⟨2 ^ 96 - 1, 28, true⟩ ⟨1, 0, false⟩) 0 ∧ operandOk (ctx ⟨2 ^ 96 - 1, 28, true⟩ ⟨1, 0, false⟩) 1 := by decide

theorem witness_DsubAddsNegated :
    operandOk (ctx ⟨0, 28, true⟩ ⟨2 ^ 96 - 1, 28, false⟩) 0 ∧ operandOk (ctx ⟨0, 28, true⟩ ⟨2 ^ 96 - 1, 28, false⟩) 1 := by decide

theorem witness_SumAndDifferenceAreExact :
    operandOk (ctx ⟨15, 1, false⟩ ⟨225, 2, false⟩) 0 ∧ operandOk (ctx ⟨15, 1, false⟩ ⟨225, 2, false⟩) 1 ∧
      operand (ctx ⟨15, 1, false⟩ ⟨225, 2, false⟩) 0 = ⟨15, 1, false⟩ ∧ operand (ctx ⟨15, 1, false⟩ ⟨225, 2, false⟩) 1 = ⟨225, 2, false⟩ ∧
      alignsExactly ⟨15, 1, false⟩ ⟨225, 2, false⟩ ∧ 15 * 10 ^ (2 - 1) + 225 * 10 ^ (2 - 2) ≤ 2 ^ 96 - 1 := by decide

theorem witness_DmulFollowsReduction :
    operandOk (ctx ⟨451, 28, false⟩ ⟨1, 2, true⟩) 0 ∧ operandOk (ctx ⟨451, 28, false⟩ ⟨1, 2, true⟩) 1 ∧
      operand (ctx ⟨451, 28, false⟩ ⟨1, 2, true⟩) 0 = ⟨451, 28, false⟩ ∧ operand (ctx ⟨451, 28, false⟩ ⟨1, 2, true⟩) 1 = ⟨1, 2, true⟩ := by decide

theorem witness_ProductIsExact :
    operandOk (ctx ⟨15, 1, false⟩ ⟨3, 27, true⟩) 0 ∧ operandOk (ctx ⟨15, 1, false⟩ ⟨3, 27, true⟩) 1 ∧
      operand (ctx ⟨15, 1, false⟩ ⟨3, 27, true⟩) 0 = ⟨15, 1, false⟩ ∧ operand (ctx ⟨15, 1, false⟩ ⟨3, 27, true⟩) 1 = ⟨3, 27, true⟩ ∧
      15 * 3 ≤ 2 ^ 96 - 1 ∧ 1 + 27 ≤ 28 := by decide

/-- The three clauses of the division: a zero divisor, a divisor rounded to zero, and a divisor that stays. -/
theorem witness_DdivFollowsLongDivision :
    operandOk (ctx ⟨2 ^ 96 - 1, 0, false⟩ ⟨5, 1, false⟩) 0 ∧ operandOk (ctx ⟨2 ^ 96 - 1, 0, false⟩ ⟨5, 1, false⟩) 1 ∧
      operand (ctx ⟨1, 0, false⟩ ⟨0, 28, true⟩) 1 = ⟨0, 28, true⟩ ∧ operandOk (ctx ⟨1, 0, false⟩ ⟨0, 28, true⟩) 1 ∧
      (roundedBy 1 5 = 0 ∧ 10 * (2 ^ 96 - 1) > 2 ^ 96 - 1) ∧ roundedBy 1 6 ≠ 0 ∧ ¬ divisionStops 2 3 0 := by decide

theorem witness_DdivTruncatesQuotient :
    operandOk (ctx ⟨2, 28, true⟩ ⟨3, 0, false⟩) 0 ∧ operandOk (ctx ⟨2, 28, true⟩ ⟨3, 0, false⟩) 1 ∧
      operand (ctx ⟨2, 28, true⟩ ⟨3, 0, false⟩) 0 = ⟨2, 28, true⟩ ∧ operand (ctx ⟨2, 28, true⟩ ⟨3, 0, false⟩) 1 = ⟨3, 0, false⟩ ∧
      (3 : Nat) ≠ 0 ∧ 0 ≤ 28 := by decide

theorem witness_DdivNeverOverflows :
    (∃ t, exec (.ddiv 2 0 1) (ctx ⟨2, 0, true⟩ ⟨3, 0, false⟩) = .next t) ∧ operandOk (ctx ⟨2, 0, true⟩ ⟨3, 0, false⟩) 0 ∧
      operandOk (ctx ⟨2, 0, true⟩ ⟨3, 0, false⟩) 1 := ⟨⟨_, rfl⟩, by decide, by decide⟩

theorem witness_RestoringDivisionIsExact :
    2 ^ 96 - 1 < 2 ^ 96 ∧ 0 < 2 ^ 95 + 1 ∧ 2 ^ 95 + 1 < 2 ^ 96 ∧ restoringDivide (2 ^ 96 - 1) (2 ^ 95 + 1) = (1, 2 ^ 95 - 2) := by decide

/-- Two negatives whose alignment rounds, so that they stand level. -/
theorem witness_RelationalCommandsFollowOrd :
    operandOk (ctx ⟨7922816251426433759354395034, 0, true⟩ ⟨2 ^ 96 - 1, 1, true⟩) 0 ∧
      operandOk (ctx ⟨7922816251426433759354395034, 0, true⟩ ⟨2 ^ 96 - 1, 1, true⟩) 1 ∧
      operand (ctx ⟨7922816251426433759354395034, 0, true⟩ ⟨2 ^ 96 - 1, 1, true⟩) 0 = ⟨7922816251426433759354395034, 0, true⟩ ∧
      operand (ctx ⟨7922816251426433759354395034, 0, true⟩ ⟨2 ^ 96 - 1, 1, true⟩) 1 = ⟨2 ^ 96 - 1, 1, true⟩ := by decide

/-- R150's order on that pair, on a zero against a positive number, on two negatives, and on a zero against a negative. -/
theorem test_order_by_rule :
    levelByRule ⟨7922816251426433759354395034, 0, true⟩ ⟨2 ^ 96 - 1, 1, true⟩ ∧
    belowByRule ⟨0, 0, true⟩ ⟨1, 4, false⟩ ∧ belowByRule ⟨2, 0, true⟩ ⟨1, 0, true⟩ ∧ ¬ belowByRule ⟨0, 0, false⟩ ⟨1, 0, true⟩ :=
  ⟨by decide, by decide, by decide, by decide⟩

theorem witness_EqualityCommandsFollowRule :
    operandOk (ctx ⟨15, 1, false⟩ ⟨150, 2, false⟩) 0 ∧ operandOk (ctx ⟨15, 1, false⟩ ⟨150, 2, false⟩) 1 ∧
      operand (ctx ⟨15, 1, false⟩ ⟨150, 2, false⟩) 0 = ⟨15, 1, false⟩ ∧
      operand (ctx ⟨15, 1, false⟩ ⟨150, 2, false⟩) 1 = ⟨150, 2, false⟩ := by decide

theorem witness_ComparisonsOrderNumbers :
    operandOk (ctx ⟨0, 0, false⟩ ⟨1, 28, false⟩) 0 ∧ operandOk (ctx ⟨0, 0, false⟩ ⟨1, 28, false⟩) 1 ∧
      operand (ctx ⟨0, 0, false⟩ ⟨1, 28, false⟩) 0 = ⟨0, 0, false⟩ ∧ operand (ctx ⟨0, 0, false⟩ ⟨1, 28, false⟩) 1 = ⟨1, 28, false⟩ ∧
      alignsExactly ⟨0, 0, false⟩ ⟨1, 28, false⟩ := by decide

theorem witness_ZeroSignAsymmetry :
    operandOk (ctx ⟨0, 0, false⟩ ⟨0, 28, true⟩) 0 ∧ operandOk (ctx ⟨0, 0, false⟩ ⟨0, 28, true⟩) 1 ∧
      (operand (ctx ⟨0, 0, false⟩ ⟨0, 28, true⟩) 0).m = 0 ∧ (operand (ctx ⟨0, 0, false⟩ ⟨0, 28, true⟩) 1).m = 0 ∧
      (operand (ctx ⟨0, 0, false⟩ ⟨0, 28, true⟩) 0).neg ≠ (operand (ctx ⟨0, 0, false⟩ ⟨0, 28, true⟩) 1).neg := by decide

theorem witness_AlignmentCanEquateDistinct :
    readD (sources (ctx ⟨7922816251426433759354395034, 0, false⟩ ⟨2 ^ 96 - 1, 1, false⟩)) 0 =
        pack ⟨7922816251426433759354395034, 0, false⟩ ∧
      readD (sources (ctx ⟨7922816251426433759354395034, 0, false⟩ ⟨2 ^ 96 - 1, 1, false⟩)) 1 = pack ⟨2 ^ 96 - 1, 1, false⟩ := by decide

/-- Shared by the shaping statements and D2I and D2F: one decimal operand at the boundary of its format. -/
theorem witness_DtruncDropsFraction :
    operandOk (ctx ⟨2 ^ 96 - 1, 28, true⟩ ⟨0, 0, false⟩) 0 ∧
      operand (ctx ⟨2 ^ 96 - 1, 28, true⟩ ⟨0, 0, false⟩) 0 = ⟨2 ^ 96 - 1, 28, true⟩ := by decide

theorem witness_DroundRoundsHalfAway :
    operandOk (ctx ⟨2 ^ 96 - 1, 0, false⟩ ⟨0, 0, false⟩) 0 ∧
      operand (ctx ⟨2 ^ 96 - 1, 0, false⟩ ⟨0, 0, false⟩) 0 = ⟨2 ^ 96 - 1, 0, false⟩ := by decide

theorem witness_DfloorRoundsDown :
    operandOk (ctx ⟨0, 3, true⟩ ⟨0, 0, false⟩) 0 ∧ operand (ctx ⟨0, 3, true⟩ ⟨0, 0, false⟩) 0 = ⟨0, 3, true⟩ := by decide

theorem witness_DnegFlipsSignBit :
    operandOk (ctx ⟨25, 1, false⟩ ⟨0, 0, false⟩) 0 ∧
      readD (sources (ctx ⟨25, 1, false⟩ ⟨0, 0, false⟩)) 0 = ⟨25#32, 0#32, 0#32, 0x00010000#32⟩ := by decide

theorem witness_ShapingProperties : operandOk (ctx ⟨5, 1, true⟩ ⟨0, 0, false⟩) 0 := by decide

theorem witness_I2dDenotesInteger : readS (sources (ctxS 0x80000000#32)) 0 = 0x80000000#32 := by decide

/-- The three clauses of D2I: above `2^31`, `2^31` with sign 0, and `2^31` with sign 1, which is in range. -/
theorem witness_D2iTruncatesInRange :
    (operandOk (ctx ⟨2147483649, 0, true⟩ ⟨2147483648, 0, false⟩) 0 ∧
      operand (ctx ⟨2147483649, 0, true⟩ ⟨2147483648, 0, false⟩) 0 = ⟨2147483649, 0, true⟩) ∧
    (operandOk (ctx ⟨2147483649, 0, true⟩ ⟨2147483648, 0, false⟩) 1 ∧
      operand (ctx ⟨2147483649, 0, true⟩ ⟨2147483648, 0, false⟩) 1 = ⟨2147483648, 0, false⟩) ∧
    operand (ctx ⟨2147483648, 0, true⟩ ⟨0, 0, false⟩) 0 = ⟨2147483648, 0, true⟩ := by decide

/-- The three clauses of the special inputs: the smallest NaN pattern's exponent, both zeros, and the largest pattern below `10^-28`. -/
theorem witness_F2dSpecialInputs :
    readS (sources (ctxS 0x7F800000#32)) 0 = 0x7F800000#32 ∧ (0x7F800000#32).toNat / 2 ^ 23 % 256 = 255 ∧
      (0x80000000#32).toNat % 2 ^ 31 = 0 ∧ 0 < absVal32Q 0x10FD87B5#32 ∧ absVal32Q 0x10FD87B5#32 < 1 / 10 ^ 28 := by
  refine ⟨by decide, by decide, by decide, ?_, ?_⟩ <;> norm_num [absVal32Q]

/-- The smallest pattern from `10^-28` up, whose scale stops at 28, and one in the middle of the range. -/
theorem witness_F2dKeepsSevenDigits :
    readS (sources (ctxS 0x10FD87B6#32)) 0 = 0x10FD87B6#32 ∧ (0x10FD87B6#32).toNat / 2 ^ 23 % 256 ≠ 255 ∧
      1 / 10 ^ 28 ≤ absVal32Q 0x10FD87B6#32 ∧ 1 / 10 ^ 28 ≤ absVal32Q 0x7F7FFFFF#32 := by
  refine ⟨by decide, by decide, ?_, ?_⟩ <;> norm_num [absVal32Q]

theorem witness_D2fRoundsAtEveryStep :
    operandOk (ctx ⟨1, 28, false⟩ ⟨0, 0, false⟩) 0 ∧ operand (ctx ⟨1, 28, false⟩ ⟨0, 0, false⟩) 0 = ⟨1, 28, false⟩ := by decide

/-- Both clauses at their boundary: a negative zero at the largest scale, and `2^24` at scale 0. -/
theorem witness_D2fKeepsSignAndSmallIntegers :
    operandOk (ctx ⟨0, 28, true⟩ ⟨2 ^ 24, 0, false⟩) 0 ∧ operand (ctx ⟨0, 28, true⟩ ⟨2 ^ 24, 0, false⟩) 0 = ⟨0, 28, true⟩ ∧
      operandOk (ctx ⟨0, 28, true⟩ ⟨2 ^ 24, 0, false⟩) 1 ∧ operand (ctx ⟨0, 28, true⟩ ⟨2 ^ 24, 0, false⟩) 1 = ⟨2 ^ 24, 0, false⟩ := by
  decide

theorem witness_AlignmentRaisesThenLowers : (⟨2 ^ 96 - 1, 0⟩ : Mag).s ≤ (⟨15, 1⟩ : Mag).s ∧ (⟨2 ^ 96 - 1, 0⟩ : Mag).m ≤ 2 ^ 96 - 1 := by decide

theorem witness_WindowReadMap : 0xA8 ≤ 0xFC ∧ 0xFC < 256 := by decide

theorem witness_WindowReadAfterWrite :
    State.reset.busy = false ∧ 0x9C < 0xA0 ∧ 0x9C % 4 = 0 ∧ 0xA0 < 256 ∧ 0xA0 % 4 = 0 ∧ 0xA0 ≠ 0x9C := by decide

/-- The clauses at their boundaries: CMD is the last ignored offset, then STATUS, then the first reserved one. -/
theorem witness_BusyWritesAreIgnored :
    dueState.busy = true ∧ (0xA0 % 4 = 0 ∧ 0xA0 < 0xA4) ∧ 0xA4 % 4 = 0 ∧ (0xA8 % 4 = 0 ∧ 0xA8 ≤ 0xA8 ∧ 0xA8 < 256) := by decide

theorem witness_StatusLayoutAndClear : (6 = 6 ∨ 6 = 7 ∨ 9 ≤ 6) ∧ (31 = 6 ∨ 31 = 7 ∨ 9 ≤ 31) := by decide

theorem witness_CommandAcceptance : State.reset.busy = false ∧ dueState.busy = true := by decide

theorem witness_ReservedOffsets : 0xA8 ≤ 0xFC ∧ 0xFC < 256 ∧ 0xFC % 4 = 0 := by decide

theorem witness_OutOfContractAccessFaults :
    ((∀ l, ¬ completionDue (idleWith (.read Config.dcoreBase 2)) l) ∧
      hostNext (idleWith (.read Config.dcoreBase 2)) = some (.read Config.dcoreBase 2) ∧
      ¬ moveInContract (.read Config.dcoreBase 2)) ∧
    ((∀ l, ¬ completionDue (idleWith (memRead 0xFC)) l) ∧ hostNext (idleWith (memRead 0xFC)) = some (memRead 0xFC) ∧
      moveInContract (memRead 0xFC)) := by
  refine ⟨⟨?_, rfl, ?_⟩, ⟨?_, rfl, ?_⟩⟩
  · rw [not_completionDue_iff]; rfl
  · intro h; exact absurd h.1 (by decide)
  · rw [not_completionDue_iff]; rfl
  · exact ⟨rfl, 0xFC, rfl, by decide, by decide⟩

theorem witness_HostReadsObserve :
    ((∀ l, ¬ completionDue (idleWith (memRead 0xFC)) l) ∧ hostNext (idleWith (memRead 0xFC)) = some (memRead 0xFC) ∧ 0xFC % 4 = 0) ∧
    ((∀ l, ¬ completionDue (idleWith .wait) l) ∧ hostNext (idleWith .wait) = some .wait) := by
  refine ⟨⟨?_, rfl, rfl⟩, ⟨?_, rfl⟩⟩ <;> rw [not_completionDue_iff] <;> rfl

/-- One state for each of the four moves, the write at the last offset of the window. -/
theorem witness_HostMovesAct :
    ((∀ l, ¬ completionDue (idleWith (memWrite 0xFC 7#32)) l) ∧ hostNext (idleWith (memWrite 0xFC 7#32)) = some (memWrite 0xFC 7#32) ∧
      0xFC < 256 ∧ 0xFC % 4 = 0) ∧
    ((∀ l, ¬ completionDue (idleWith .readStatus) l) ∧ hostNext (idleWith .readStatus) = some .readStatus) ∧
    ((∀ l, ¬ completionDue (idleWith (.branch (.ecIs 0) 5)) l) ∧
      hostNext (idleWith (.branch (.ecIs 0) 5)) = some (.branch (.ecIs 0) 5)) ∧
    ((∀ l, ¬ completionDue (idleWith (.jump 0)) l) ∧ hostNext (idleWith (.jump 0)) = some (.jump 0)) := by
  refine ⟨⟨?_, rfl, by decide, rfl⟩, ⟨?_, rfl⟩, ⟨?_, rfl⟩, ⟨?_, rfl⟩⟩ <;> rw [not_completionDue_iff] <;> rfl

theorem witness_ResetSignalDiscardsCommand :
    (∀ l, ¬ completionDue { busyState with script := [.reset] } l) ∧ hostNext { busyState with script := [.reset] } = some .reset := by
  refine ⟨?_, rfl⟩
  rw [not_completionDue_iff]; rfl

theorem witness_EndedRunStaysEnded :
    runEnded State.reset = true ∧ hostDone dueState = true ∧ dueState.busy = true := by decide

end Sys2Proof.Tests
end

section
/-! SUPPORT. Commands on well-formed operands as the next states of Safety, and a command's word in R68's form. -/

namespace Sys2Proof.Machine

/-- A DDD command on well-formed operands, as its next state (R71, R72). -/
theorem runDDD_eq_afterD (sem : Dec → Dec → Dec × ErrorCode) (d a b : Fin 8) (s : State) (ha : operandOk s a) (hb : operandOk s b) :
    runDDD sem (regField d) (regField a) (regField b) s =
      .next (afterD d (sem (operand s a) (operand s b)).1 (sem (operand s a) (operand s b)).2 s) := by
  rw [runDDD_ok sem d a b s ((operandOk_iff s a).1 ha) ((operandOk_iff s b).1 hb), completeWith_dreg_eq_afterD]

/-- A comparison of well-formed operands, as its next state (R36, R71). -/
theorem runCMP_eq_afterCF (rel : Dec → Dec → Bool) (a b : Fin 8) (s : State) (ha : operandOk s a) (hb : operandOk s b) :
    runCMP rel (regField a) (regField b) s = .next (afterCF (rel (operand s a) (operand s b)) s) := by
  rw [runCMP_ok rel a b s ((operandOk_iff s a).1 ha) ((operandOk_iff s b).1 hb), completeWith_cf_eq_afterCF]

/-- An SD command on a well-formed operand, as its next state (R71, R72). -/
theorem runSD_eq_afterS (sem : Dec → Word × ErrorCode) (d a : Fin 8) (s : State) (ha : operandOk s a) :
    runSD sem (regField d) (regField a) s = .next (afterS d (sem (operand s a)).1 (sem (operand s a)).2 s) := by
  rw [runSD_ok sem d a s ((operandOk_iff s a).1 ha), completeWith_sreg_eq_afterS]

theorem wordOf_eq_commandWord (rb ra rd : RegField) (o : BitVec 8) :
    wordOf rb ra rd o = commandWord rb.toNat ra.toNat rd.toNat o.toNat := rfl

end Sys2Proof.Machine
end

section
/-! SUPPORT. Bounded completion of an accepted command (R72, R258). -/

namespace Sys2Proof.Machine

/-- While BUSY = 1 no window write touches the latch (R44, R70). -/
theorem windowWrite_latch_of_busy (off : Nat) (v : Word) (s : State) (hb : s.busy = true) :
    (windowWrite off v s).latch = s.latch := by
  unfold windowWrite
  cases windowReg off <;> simp [writeReg, hb]

/-- A move in contract has a next state, keeps the script, and while BUSY = 1 leaves the latch or, by reset, empties it. -/
theorem hostMove_of_busy (op : HostOp) (s : State) (hc : moveInContract op) (hb : s.busy = true) :
    ∃ t, hostMove op s = .next t ∧ t.script = s.script ∧ (t.latch = none ∨ t.latch = s.latch) := by
  cases op with
  | write addr bytes v =>
    obtain ⟨rfl, off, rfl, hlt, hmod⟩ := hc
    refine ⟨advance (windowWrite off v s), ?_, (windowWrite_host off v s).1, .inr (windowWrite_latch_of_busy off v s hb)⟩
    simp only [hostMove, windowOffset_inside off hlt hmod]
  | read addr bytes =>
    obtain ⟨rfl, off, rfl, hlt, hmod⟩ := hc
    refine ⟨advance (reply (windowRead off s) s), ?_, rfl, .inr rfl⟩
    simp only [hostMove, windowOffset_inside off hlt hmod]
  | readStatus => exact ⟨_, rfl, rfl, .inr rfl⟩
  | wait => exact ⟨_, rfl, by rw [if_pos hb]; rfl, .inr (by rw [if_pos hb]; rfl)⟩
  | branch c target => exact ⟨_, rfl, by split <;> rfl, .inr (by split <;> rfl)⟩
  | jump target => exact ⟨_, rfl, rfl, .inr rfl⟩
  | halt => exact ⟨_, rfl, rfl, .inr rfl⟩
  | reset => exact ⟨_, rfl, rfl, .inl rfl⟩

/-- A step with latency left: one host move in contract, after which the latch is empty or has one turn less to wait. -/
theorem step_of_waiting (s : State) (l : Latch) (hl : s.latch = some l) (hc : scriptInContract s)
    (hw : l.wait ≠ 0) (hd : hostDone s = false) :
    ∃ t, step s = .next t ∧ scriptInContract t ∧ (t.latch = none ∨ t.latch = some { l with wait := l.wait - 1 }) := by
  have hnd : dueWord s = none := (dueWord_eq_none s).2 fun l' hl' => by
    rw [hl] at hl'; cases hl'; exact ⟨hw, hd⟩
  cases hop : hostNext s with
  | none => simp [hostDone, hop] at hd
  | some op =>
    have hmem : op ∈ s.script := List.mem_of_getElem? hop
    obtain ⟨t, ht, hscript, hlatch⟩ := hostMove_of_busy op (tick s) (hc op hmem) (by simp [State.busy, hl])
    refine ⟨t, ?_, by simpa [scriptInContract, hscript] using hc, by simpa [hl] using hlatch⟩
    simp only [step_of_not_due s hnd, hostTurn, hop, ht]

/-- One step of a run of the machine. -/
theorem core_run_succ (k : Nat) (s t : State) (h : step s = .next t) : Sys2Proof.core.run (k + 1) s = Sys2Proof.core.run k t := by
  have h' : Sys2Proof.core.step s = .next t := h
  simp only [Host.Core.run, h']

/-- A completion that is due takes one step. -/
theorem core_run_one_of_due (s : State) (l : Latch) (h : completionDue s l) :
    ∃ t : State, Sys2Proof.core.run 1 s = .next t ∧ t.busy = false := by
  obtain ⟨w, ec, hstep⟩ := step_of_due s l.word (dueWord_of_completionDue s l h)
  exact ⟨_, core_run_succ 0 s _ hstep, completeWith_busy w ec s⟩

/-- Settles O13, by induction on the latency left. -/
theorem acceptedCommandCompletesInTime : Obligations.AcceptedCommandCompletesInTime := by
  intro s l hl hc
  induction hn : l.wait generalizing s l with
  | zero => exact ⟨1, le_refl 1, core_run_one_of_due s l ⟨hl, .inl hn⟩⟩
  | succ n ih =>
    cases hd : hostDone s with
    | true => exact ⟨1, by omega, core_run_one_of_due s l ⟨hl, .inr hd⟩⟩
    | false =>
      obtain ⟨t, hstep, hct, hlatch | hlatch⟩ := step_of_waiting s l hl hc (by omega) hd
      · exact ⟨1, by omega, t, core_run_succ 0 s t hstep, by simp [State.busy, hlatch]⟩
      · obtain ⟨k, hk, u, hrun, hu⟩ := ih t _ hlatch hct (by simp [hn])
        exact ⟨k + 1, by omega, u, (core_run_succ k s t hstep).trans hrun, hu⟩

end Sys2Proof.Machine
end

section
/-! SUPPORT. The value of a decimal record (R2), and DADD, DSUB and DMUL where nothing is rounded (R111, R130 to R132). -/

namespace Sys2Proof.Machine

/-- A mantissa raised to scale `S` (R111). -/
def raisedTo (S m s : Nat) : Nat := m * 10 ^ (S - s)

/-- Raising a mantissa with its scale keeps the value (R2, R111). -/
theorem decValue_raisedTo (v : Dec) (S : Nat) (h : v.s ≤ S) : decValue ⟨raisedTo S v.m v.s, S, v.neg⟩ = decValue v := by
  obtain ⟨n, rfl⟩ := Nat.exists_eq_add_of_le h
  simp only [decValue, raisedTo, Nat.add_sub_cancel_left, pow_add, Nat.cast_mul, Nat.cast_pow, Nat.cast_ofNat]
  field_simp

theorem decValue_zero_mant (v : Dec) (h : v.m = 0) : decValue v = 0 := by simp [decValue, h]

/-- A flipped sign negates the value (R131). -/
theorem decValue_flip (v : Dec) : decValue (setSign v (!v.neg)) = -decValue v := by
  cases h : v.neg <;> simp [decValue, setSign, h] <;> ring

/-- The product of the mantissas at the sum of the scales denotes the product (R132). -/
theorem decValue_mul (x y : Dec) : decValue ⟨x.m * y.m, x.s + y.s, x.neg ^^ y.neg⟩ = decValue x * decValue y := by
  cases hx : x.neg <;> cases hy : y.neg <;> simp [decValue, hx, hy, pow_add] <;> ring

/-- The order of the operands does not matter to the alignment loop (R110). -/
theorem alignLoop_swap (n : Nat) (raising : Bool) (a b : Mag) : alignLoop n raising b a = (alignLoop n raising a b).swap := by
  induction n generalizing raising a b with
  | zero => rfl
  | succ n ih =>
    rw [alignLoop, alignLoop]
    rcases lt_trichotomy a.s b.s with h | h | h
    · rw [if_neg h.ne', if_neg h.asymm, if_neg h.ne, if_pos h]
      split <;> exact ih _ _ _
    · rw [if_pos h.symm, if_pos h, Prod.swap]
    · rw [if_neg h.ne, if_pos h, if_neg h.ne', if_neg h.asymm]
      split <;> exact ih _ _ _

theorem align_swap (a b : Mag) : align b a = (align a b).swap := by
  rw [align, align, Nat.add_comm, alignLoop_swap]

/-- The loop raises the operand of smaller scale all the way where the result fits (R110). -/
theorem alignLoop_of_fits (n : Nat) (a b : Mag) (hs : a.s + n = b.s) (hm : a.m * 10 ^ n ≤ 2 ^ 96 - 1) :
    alignLoop n true a b = (⟨a.m * 10 ^ n, b.s⟩, b) := by
  induction n generalizing a with
  | zero => rw [← hs, pow_zero, mul_one, Nat.add_zero, alignLoop]
  | succ n ih =>
    have hpow : a.m * 10 ^ (n + 1) = 10 * a.m * 10 ^ n := by ring
    rw [hpow] at hm ⊢
    have hfit : 10 * a.m ≤ 2 ^ 96 - 1 := (Nat.le_mul_of_pos_right _ (by positivity)).trans hm
    rw [alignLoop, if_neg (by omega), if_pos (by omega), mulByTen_of_le _ hfit]
    exact ih ⟨10 * a.m, a.s + 1⟩ (by simp only; omega) hm

/-- Alignment that rounds nothing raises both mantissas to the larger scale (R110, R111). -/
theorem align_of_fits (a b : Mag) (ha : raisedTo (max a.s b.s) a.m a.s ≤ 2 ^ 96 - 1)
    (hb : raisedTo (max a.s b.s) b.m b.s ≤ 2 ^ 96 - 1) :
    align a b = (⟨raisedTo (max a.s b.s) a.m a.s, max a.s b.s⟩, ⟨raisedTo (max a.s b.s) b.m b.s, max a.s b.s⟩) := by
  wlog h : a.s ≤ b.s generalizing a b
  · rw [align_swap, this b a (max_comm a.s b.s ▸ hb) (max_comm a.s b.s ▸ ha) (le_of_not_ge h), max_comm b.s]
    rfl
  · rw [max_eq_right h, raisedTo] at *
    rw [align, Nat.sub_eq_zero_of_le h, Nat.zero_add, alignLoop_of_fits _ a b (by omega) ha, raisedTo, Nat.sub_self,
      pow_zero, mul_one]

/-- DADD of magnitudes of one sign whose sum fits: the sum at their scale (R130). -/
theorem addMagnitudes_of_le (ma mb s : Nat) (neg : Bool) (h : ma + mb ≤ 2 ^ 96 - 1) :
    addMagnitudes ma mb s neg = (⟨ma + mb, s, neg⟩, .ok) := by
  have hle : ¬ ma + mb > Config.maxMant := not_lt.2 h
  simp [addMagnitudes, hle]

/-- DADD of magnitudes of different signs gives their sum, `+0` on a tie (R130). -/
theorem subMagnitudes_exact (ma mb s : Nat) (na nb : Bool) (hne : na ≠ nb) (ha : ma ≤ 2 ^ 96 - 1) (hb : mb ≤ 2 ^ 96 - 1) :
    ∃ r : Dec, subMagnitudes ma mb s na nb = (r, .ok) ∧ r.m ≤ 2 ^ 96 - 1 ∧ r.s = s ∧
      decValue r = decValue ⟨ma, s, na⟩ + decValue ⟨mb, s, nb⟩ ∧ (r.m = 0 → r.neg = false) := by
  have hnb : nb = !na := by cases na <;> cases nb <;> simp_all
  subst hnb
  rcases lt_trichotomy ma mb with h | h | h
  · refine ⟨⟨mb - ma, s, !na⟩, by simp [subMagnitudes, h, h.le], by simp only; omega, rfl, ?_, by simp only; omega⟩
    cases na <;> simp [decValue, Nat.cast_sub h.le] <;> ring
  · refine ⟨⟨0, s, false⟩, by simp [subMagnitudes, h], by simp, rfl, ?_, fun _ => rfl⟩
    cases na <;> simp [decValue, h] <;> ring
  · refine ⟨⟨ma - mb, s, na⟩, by simp [subMagnitudes, h], by simp only; omega, rfl, ?_, by simp only; omega⟩
    cases na <;> simp [decValue, Nat.cast_sub h.le] <;> ring

/-- The sum DADD computes where alignment rounds nothing and no carry occurs (R2, R130). -/
theorem semDadd_exact (x y : Dec) (hfit : alignsExactly x y)
    (hcarry : x.neg = y.neg → raisedTo (max x.s y.s) x.m x.s + raisedTo (max x.s y.s) y.m y.s ≤ 2 ^ 96 - 1) :
    ∃ r : Dec, semDadd x y = (r, .ok) ∧ r.m ≤ 2 ^ 96 - 1 ∧ r.s = max x.s y.s ∧ decValue r = decValue x + decValue y ∧
      (r.m = 0 → r.neg = (x.neg && y.neg)) := by
  rw [semDadd, align_of_fits ⟨x.m, x.s⟩ ⟨y.m, y.s⟩ hfit.1 hfit.2, ← decValue_raisedTo x _ (le_max_left x.s y.s),
    ← decValue_raisedTo y _ (le_max_right x.s y.s)]
  by_cases hsign : x.neg = y.neg
  · have hle := hcarry hsign
    rw [if_pos hsign, addMagnitudes_of_le _ _ _ _ hle]
    refine ⟨_, rfl, hle, rfl, ?_, fun _ => by simp [hsign]⟩
    simp only [decValue, hsign, Nat.cast_add]
    ring
  · rw [if_neg hsign]
    obtain ⟨r, hr, hm, hs, hv, hz⟩ := subMagnitudes_exact _ _ (max x.s y.s) x.neg y.neg hsign hfit.1 hfit.2
    refine ⟨r, hr, hm, hs, hv, fun h => (hz h).trans ?_⟩
    cases hx : x.neg <;> cases hy : y.neg <;> simp_all

/-- Settles O22: DADD on the two operands, and on the second with its sign flipped. -/
theorem sumAndDifferenceAreExact : Obligations.SumAndDifferenceAreExact := by
  rintro d a b s x y ha hb rfl rfl hfit
  constructor
  · intro hcarry
    obtain ⟨r, hr, hrest⟩ := semDadd_exact _ _ hfit hcarry
    exact ⟨r, by rw [exec, execDadd, runDDD_eq_afterD _ d a b s ha hb, hr], hrest⟩
  · intro hcarry
    obtain ⟨r, hr, hm, hs, hv, hz⟩ := semDadd_exact (operand s a) (setSign (operand s b) (!(operand s b).neg)) hfit
      fun h => hcarry (by simp_all [setSign])
    refine ⟨r, ?_, hm, hs, by rw [hv, decValue_flip, sub_eq_add_neg], hz⟩
    rw [exec, execDsub, runDDD_eq_afterD _ d a b s ha hb, semDsub, hr]

/-- The reduction loop leaves a product that fits as it is (R132). -/
theorem mulReduce_of_fits (p s : Nat) (hp : p ≤ 2 ^ 96 - 1) (hs : s ≤ 28) : mulReduce p s = ⟨p, s⟩ := by
  cases s with
  | zero => rfl
  | succ n => rw [mulReduce, if_neg (by simp only [Config.maxMant, Config.scaleMax]; omega)]

/-- The product DMUL computes where it fits (R132). -/
theorem semDmul_of_fits (x y : Dec) (hp : x.m * y.m ≤ 2 ^ 96 - 1) (hs : x.s + y.s ≤ 28) :
    semDmul x y = (⟨x.m * y.m, if x.m * y.m = 0 then 0 else x.s + y.s, x.neg ^^ y.neg⟩, .ok) := by
  rw [semDmul, mulReduce_of_fits _ _ hp hs, if_neg (not_lt.2 hp)]

/-- Settles O24: the reduction loop makes no turn. -/
theorem productIsExact : Obligations.ProductIsExact := by
  rintro d a b s x y ha hb rfl rfl hp hs
  refine ⟨_, by rw [exec, execDmul, runDDD_eq_afterD _ d a b s ha hb, semDmul_of_fits _ _ hp hs], rfl, rfl, rfl, ?_⟩
  rw [← decValue_mul]
  by_cases hz : (operand s a).m * (operand s b).m = 0
  · rw [decValue_zero_mant _ hz, decValue_zero_mant _ hz]
  · rw [if_neg hz]

end Sys2Proof.Machine
end

section
/-! SUPPORT. The comparisons where alignment rounds nothing: the order of the numbers (R2, R111, R150, R155). -/

namespace Sys2Proof.Machine

/-- An operand counts as negative for ordering exactly when its value is below 0 (R150). -/
theorem orderSign_eq_true_iff (v : Dec) : orderSign v = true ↔ decValue v < 0 := by
  by_cases hz : v.m = 0
  · simp [orderSign, isZero, hz, decValue_zero_mant v hz]
  · have hpos : (0 : ℚ) < (v.m : ℚ) / 10 ^ v.s := by have := Nat.pos_of_ne_zero hz; positivity
    cases hn : v.neg with
    | false => simpa [orderSign, isZero, hz, hn, decValue] using hpos.le
    | true => simpa [orderSign, isZero, hz, hn, decValue, neg_div] using hpos

/-- The ordering sign gives the value as well as the sign bit does: they differ only on a zero (R150). -/
theorem decValue_orderSign (v : Dec) : decValue ⟨v.m, v.s, orderSign v⟩ = decValue v := by
  by_cases hz : v.m = 0
  · rw [decValue_zero_mant v hz, decValue_zero_mant ⟨v.m, v.s, orderSign v⟩ hz]
  · simp [orderSign, isZero, hz]

/-- Two records of one scale and one sign bit have one value exactly when their mantissas agree. -/
theorem decValue_inj_mant (ma mb S : Nat) (n : Bool) : decValue ⟨ma, S, n⟩ = decValue ⟨mb, S, n⟩ ↔ ma = mb := by
  cases n <;> simp [decValue, neg_div, div_left_inj']

/-- Magnitudes at one scale, compared and inverted for two negatives, order the values (R150). -/
theorem compareMagnitude_compares (neg : Bool) (ma mb S : Nat) :
    (if (if neg then -compareMagnitude ma mb else compareMagnitude ma mb) < 0 then Ordering.lt
      else if (if neg then -compareMagnitude ma mb else compareMagnitude ma mb) = 0 then .eq else .gt).Compares
      (decValue ⟨ma, S, neg⟩) (decValue ⟨mb, S, neg⟩) := by
  have hlt : ∀ m n : Nat, m < n → (m : ℚ) / 10 ^ S < (n : ℚ) / 10 ^ S := fun m n h => by gcongr
  rcases lt_trichotomy ma mb with h | rfl | h
  · have := hlt _ _ h
    cases neg <;> simpa [compareMagnitude, decValue, neg_div, h] using this
  · cases neg <;> simp [compareMagnitude]
  · have := hlt _ _ h
    cases neg <;> simpa [compareMagnitude, decValue, neg_div, h.not_gt, h.ne'] using this

theorem raisedTo_le_raisedTo (S T m s : Nat) (h : S ≤ T) : raisedTo S m s ≤ raisedTo T m s :=
  Nat.mul_le_mul_left m (Nat.pow_le_pow_right (by norm_num) (by omega))

/-- Normalization drops only zeros that raising gives back (R109). -/
theorem raisedTo_normalize (S m s : Nat) (h : s ≤ S) : raisedTo S (normalize m s).m (normalize m s).s = raisedTo S m s := by
  induction s generalizing m with
  | zero => rfl
  | succ n ih =>
    rw [normalize]
    split
    · next hz =>
      have hgap : S - n = S - (n + 1) + 1 := by omega
      rw [ih (m / 10) (by omega), raisedTo, raisedTo, hgap, pow_succ', ← mul_assoc, Nat.div_mul_cancel (Nat.dvd_of_mod_eq_zero hz)]
    · rfl

/-- Normalization keeps the value (R109). -/
theorem decValue_normalize (v : Dec) : decValue ⟨(normalize v.m v.s).m, (normalize v.m v.s).s, v.neg⟩ = decValue v := by
  rw [← decValue_raisedTo _ v.s (normalize_scale_le v.m v.s), ← decValue_raisedTo v v.s le_rfl]
  simp only [raisedTo_normalize _ _ _ (le_refl v.s)]

/-- Where alignment rounds nothing, it rounds nothing on the normalized operands either: the mantissas `ord` compares carry the two
values at one scale (R111, R150). -/
theorem align_normalize_exact (x y : Dec) (hfit : alignsExactly x y) :
    ∃ ma mb S, align (normalize x.m x.s) (normalize y.m y.s) = (⟨ma, S⟩, ⟨mb, S⟩) ∧
      decValue ⟨ma, S, x.neg⟩ = decValue x ∧ decValue ⟨mb, S, y.neg⟩ = decValue y := by
  have hS : max (normalize x.m x.s).s (normalize y.m y.s).s ≤ max x.s y.s :=
    max_le_max (normalize_scale_le _ _) (normalize_scale_le _ _)
  have hx := (raisedTo_le_raisedTo _ _ _ _ hS).trans ((raisedTo_normalize _ _ _ (le_max_left x.s y.s)).trans_le hfit.1)
  have hy := (raisedTo_le_raisedTo _ _ _ _ hS).trans ((raisedTo_normalize _ _ _ (le_max_right x.s y.s)).trans_le hfit.2)
  exact ⟨_, _, _, align_of_fits _ _ hx hy,
    (decValue_raisedTo ⟨_, _, x.neg⟩ _ (le_max_left _ _)).trans (decValue_normalize x),
    (decValue_raisedTo ⟨_, _, y.neg⟩ _ (le_max_right _ _)).trans (decValue_normalize y)⟩

/-- A mantissa that carries the value of `v` carries it under the ordering sign of `v` too. -/
theorem decValue_with_orderSign (v : Dec) (m S : Nat) (h : decValue ⟨m, S, v.neg⟩ = decValue v) :
    decValue ⟨m, S, orderSign v⟩ = decValue v := by
  have hsign : orderSign ⟨m, S, v.neg⟩ = orderSign v := by
    rw [Bool.eq_iff_iff, orderSign_eq_true_iff, orderSign_eq_true_iff, h]
  rw [← hsign, ← h]
  exact decValue_orderSign ⟨m, S, v.neg⟩

/-- `ord` orders the two numbers as numbers where alignment rounds nothing (R150). -/
theorem ord_compares (x y : Dec) (hfit : alignsExactly x y) : (ord x y).Compares (decValue x) (decValue y) := by
  unfold ord
  split
  · next hz =>
    simp only [isZero, Bool.and_eq_true, beq_iff_eq] at hz
    exact (decValue_zero_mant x hz.1).trans (decValue_zero_mant y hz.2).symm
  · split
    · next hne =>
      have hsx := orderSign_eq_true_iff x
      have hsy := orderSign_eq_true_iff y
      cases hox : orderSign x
      · have hoy : orderSign y = true := by simpa [hox] using hne
        exact (hsy.1 hoy).trans_le (not_lt.1 fun h => by simp [hsx.2 h] at hox)
      · have hoy : orderSign y = false := by simpa [hox] using hne
        exact (hsx.1 hox).trans_le (not_lt.1 fun h => by simp [hsy.2 h] at hoy)
    · next heq =>
      obtain ⟨ma, mb, S, halign, hx, hy⟩ := align_normalize_exact x y hfit
      rw [halign, ← decValue_with_orderSign x ma S hx, ← decValue_with_orderSign y mb S hy, ← not_not.1 heq]
      exact compareMagnitude_compares (orderSign x) ma mb S

/-- `eqStrict` holds exactly for equal numbers of one sign bit where alignment rounds nothing (R155). -/
theorem eqStrict_of_fits (x y : Dec) (hfit : alignsExactly x y) :
    eqStrict x y = decide (x.neg = y.neg ∧ decValue x = decValue y) := by
  rw [eqStrict, align_of_fits ⟨x.m, x.s⟩ ⟨y.m, y.s⟩ hfit.1 hfit.2, ← decValue_raisedTo x _ (le_max_left x.s y.s),
    ← decValue_raisedTo y _ (le_max_right x.s y.s), Bool.eq_iff_iff]
  simp only [Bool.and_eq_true, beq_iff_eq, decide_eq_true_eq]
  exact and_congr_right fun hn => by rw [hn, decValue_inj_mant]

/-- Settles O31: each relation read off `ord_compares` or `eqStrict_of_fits`. -/
theorem comparisonsOrderNumbers : Obligations.ComparisonsOrderNumbers := by
  rintro a b s x y ha hb rfl rfl hfit
  have hord := ord_compares _ _ hfit
  simp only [exec, execDlt, execDle, execDgt, execDge, execDeq, execDne, runCMP_eq_afterCF _ a b s ha hb]
  have hlt : relDlt (operand s a) (operand s b) = decide (decValue (operand s a) < decValue (operand s b)) := by
    rw [Bool.eq_iff_iff, relDlt, beq_iff_eq, decide_eq_true_eq, hord.eq_lt]
  have hle : relDle (operand s a) (operand s b) = decide (decValue (operand s a) ≤ decValue (operand s b)) := by
    rw [Bool.eq_iff_iff, relDle, Bool.or_eq_true, beq_iff_eq, beq_iff_eq, decide_eq_true_eq, hord.eq_lt, hord.eq_eq, le_iff_lt_or_eq]
  have hgt : relDgt (operand s a) (operand s b) = decide (decValue (operand s b) < decValue (operand s a)) := by
    rw [Bool.eq_iff_iff, relDgt, beq_iff_eq, decide_eq_true_eq, hord.eq_gt]
  have hge : relDge (operand s a) (operand s b) = decide (decValue (operand s b) ≤ decValue (operand s a)) := by
    rw [Bool.eq_iff_iff, relDge, Bool.or_eq_true, beq_iff_eq, beq_iff_eq, decide_eq_true_eq, hord.eq_gt, hord.eq_eq, le_iff_lt_or_eq,
      eq_comm]
  have heq := eqStrict_of_fits _ _ hfit
  exact ⟨by rw [hlt], by rw [hle], by rw [hgt], by rw [hge], by rw [relDeq, heq], by rw [relDne, heq, decide_not]⟩

end Sys2Proof.Machine
end

section
/-! SUPPORT. D2F (R196): bounds on a float rounding, the packing of a binary32 value, and the roundings one after another. -/

namespace Sys2Proof.Machine

/-! ### Roundings: exactness, error and form -/

/-- An integer below a number is below the integer nearest it. -/
theorem le_of_nearestEven (n lo : Nat) (x : ℚ) (h : nearestEven n x) (hlo : (lo : ℚ) ≤ x) : lo ≤ n := by
  have hdist := (abs_le.1 h.1).2
  have hlt : (lo : ℚ) < ((n + 1 : ℕ) : ℚ) := by push_cast; linarith
  exact Nat.lt_succ_iff.1 (by exact_mod_cast hlt)

/-- An integer above a number is above the integer nearest it. -/
theorem nearestEven_le (n hi : Nat) (x : ℚ) (h : nearestEven n x) (hhi : x ≤ hi) : n ≤ hi := by
  have hdist := (abs_le.1 h.1).1
  have hlt : (n : ℚ) < ((hi + 1 : ℕ) : ℚ) := by push_cast; linarith
  exact Nat.lt_succ_iff.1 (by exact_mod_cast hlt)

theorem eq_of_nearestEven_natCast (n N : Nat) (h : nearestEven n (N : ℚ)) : n = N :=
  le_antisymm (nearestEven_le n N _ h le_rfl) (le_of_nearestEven n N _ h le_rfl)

/-- A natural number of at most `prec` bits is rounded to itself (R11). -/
theorem roundsTo_natCast (prec n : Nat) (emin : ℤ) (y : ℚ) (he : emin ≤ 0) (hn : n < 2 ^ prec) (h : roundsTo prec emin n y) :
    y = n := by
  obtain ⟨sig, e, rfl, -, -, hbin, hsig⟩ := h
  have hpow : (0 : ℚ) < 2 ^ e := by positivity
  rcases le_or_gt e 0 with h0 | h0
  · obtain ⟨k, rfl⟩ : ∃ k : ℕ, e = -(k : ℤ) := ⟨(-e).toNat, by omega⟩
    have hN : (n : ℚ) * 2 ^ (- -(k : ℤ)) = ((n * 2 ^ k : ℕ) : ℚ) := by simp
    rw [hN] at hsig
    rw [eq_of_nearestEven_natCast _ _ hsig, ← hN, mul_assoc, ← zpow_add₀ (by norm_num)]
    simp
  · have hlow := hbin.resolve_left (by omega)
    rw [zpow_neg, le_mul_inv_iff₀ hpow, ← zpow_natCast, ← zpow_add₀ (by norm_num)] at hlow
    have hge : (2 : ℚ) ^ (prec : ℤ) ≤ n := (zpow_le_zpow_right₀ (by norm_num) (by omega)).trans hlow
    rw [zpow_natCast] at hge
    exact absurd hn (not_lt.2 (by exact_mod_cast hge))

/-- A rounding errs by at most half of what it rounds, up to half the least unit (R11). -/
theorem roundsTo_error (prec : Nat) (emin : ℤ) (x y : ℚ) (hx : 0 ≤ x) (h : roundsTo prec emin x y) :
    |x - y| ≤ (x + 2 ^ emin) / 2 := by
  obtain ⟨sig, e, rfl, -, -, hbin, hsig⟩ := h
  have hpow : (0 : ℚ) < 2 ^ e := by positivity
  have hunit : (2 : ℚ) ^ e ≤ x + 2 ^ emin := by
    rcases hbin with rfl | hlow
    · linarith
    · have hone : (1 : ℚ) ≤ x * 2 ^ (-e) := (one_le_pow₀ (by norm_num)).trans hlow
      rw [zpow_neg, le_mul_inv_iff₀ hpow, one_mul] at hone
      have : (0 : ℚ) < 2 ^ emin := by positivity
      linarith
  have hscale : x - sig * 2 ^ e = (x * 2 ^ (-e) - sig) * 2 ^ e := by
    rw [zpow_neg, sub_mul, inv_mul_cancel_right₀ hpow.ne']
  rw [hscale, abs_mul, abs_of_pos hpow]
  nlinarith [hsig.1]

/-- A rounding of a non-negative number at a unit below 1 stays within these bounds. -/
theorem roundsTo_bounds (prec : Nat) (emin : ℤ) (x y : ℚ) (hx : 0 ≤ x) (he : emin ≤ -1) (h : roundsTo prec emin x y) :
    x / 2 - 1 / 4 ≤ y ∧ y ≤ 2 * x + 1 := by
  have hmin : (2 : ℚ) ^ emin ≤ 2 ^ (-1 : ℤ) := zpow_le_zpow_right₀ (by norm_num) he
  obtain ⟨h1, h2⟩ := abs_le.1 (roundsTo_error prec emin x y hx h)
  norm_num at hmin
  constructor <;> linarith

/-- A float of `prec` bits as rounding leaves it: a carry may have filled the significand, and only at the least exponent may its leading
bit be missing (R11). -/
def roundedForm (prec : Nat) (emin : ℤ) (f : BinFloat) : Prop :=
  emin ≤ f.exp ∧ f.sig ≤ 2 ^ prec ∧ (f.exp = emin ∨ 2 ^ (prec - 1) ≤ f.sig)

theorem roundFloat_roundedForm (prec : Nat) (emin : ℤ) (x : Frac) (hp : 0 < prec) (hd : 0 < x.den) :
    roundedForm prec emin (roundFloat prec emin x) := by
  by_cases hn : x.num = 0
  · simp [roundedForm, roundFloat, hn]
  · obtain ⟨hlow, hhigh⟩ := floorLog2_bounds x (Nat.pos_of_ne_zero hn) hd
    have hnear := rhe_nearestEven (fracScale2 x (-(roundFloat prec emin x).exp)) (fracScale2_den_pos _ _ hd)
    rw [fracValue_scale2] at hnear
    have hexp : (roundFloat prec emin x).exp = max (floorLog2 x - ((prec : ℤ) - 1)) emin := by rw [roundFloat, if_neg hn]
    have hsig : (roundFloat prec emin x).sig = rhe (fracScale2 x (-(roundFloat prec emin x).exp)) := by rw [roundFloat, if_neg hn]
    unfold roundedForm
    generalize (roundFloat prec emin x).exp = e at *
    refine ⟨hexp ▸ le_max_right _ _, ?_, ?_⟩
    · refine hsig ▸ nearestEven_le _ _ _ hnear ?_
      rw [zpow_neg, mul_inv_le_iff₀ (by positivity), Nat.cast_pow, Nat.cast_ofNat, ← zpow_natCast, ← zpow_add₀ (by norm_num)]
      exact hhigh.le.trans (zpow_le_zpow_right₀ (by norm_num) (by omega))
    · refine or_iff_not_imp_left.2 fun hne => hsig ▸ le_of_nearestEven _ _ _ hnear ?_
      rw [zpow_neg, le_mul_inv_iff₀ (by positivity), Nat.cast_pow, Nat.cast_ofNat, ← zpow_natCast, ← zpow_add₀ (by norm_num)]
      exact (zpow_le_zpow_right₀ (by norm_num) (by omega)).trans hlow

theorem fl32_roundedForm (x : Frac) (hd : 0 < x.den) : roundedForm 24 (-149) (fl32 x) :=
  roundFloat_roundedForm 24 _ x (by norm_num) hd

/-! ### Packing (R192) -/

/-- The packed pattern as a number, below the infinity pattern (R192). -/
theorem toNat_bits32 (f : BinFloat) (h : (f.exp + 149).toNat * 2 ^ 23 + f.sig < 0x7F800000) :
    (bits32 f).toNat = (f.exp + 149).toNat * 2 ^ 23 + f.sig := by
  rw [bits32, if_neg (by omega), BitVec.toNat_ofNat, Nat.mod_eq_of_lt (by omega)]

/-- Putting the sign bit on a magnitude pattern (R196). -/
theorem toNat_or_sign (b : Word) (n : Bool) (h : b.toNat < 2 ^ 31) :
    (b ||| (if n then 0x80000000#32 else 0#32)).toNat = n.toNat * 2 ^ 31 + b.toNat := by
  cases n with
  | false => simp
  | true => simpa [Nat.or_comm] using (Nat.two_pow_add_eq_or_of_lt h 1).symm

/-- What a pattern of exponent field `E` and fraction `F` denotes (R192). -/
theorem absVal32Q_of_fields (w : Word) (E F : Nat) (hE : w.toNat / 2 ^ 23 % 256 = E) (hF : w.toNat % 2 ^ 23 = F) :
    absVal32Q w = if E = 0 then (F : ℚ) * 2 ^ (-149 : ℤ) else ((2 ^ 23 + F : ℕ) : ℚ) * 2 ^ ((E : ℤ) - 150) := by
  have hE' : (w.toNat : ℤ) / 2 ^ 23 % 256 = E := by exact_mod_cast hE
  rw [absVal32Q, hE, hF, hE']

/-- A rounded binary32 value packs into a finite pattern that denotes it, whatever sign bit is put on (R192, R196). -/
theorem bits32_denotes (w : Word) (f : BinFloat) (n : Bool) (hform : roundedForm 24 (-149) f) (he : f.exp ≤ 100)
    (hw : w = bits32 f ||| (if n then 0x80000000#32 else 0#32)) :
    w.getLsbD 31 = n ∧ w.toNat / 2 ^ 23 % 256 ≠ 255 ∧ absVal32Q w = (f.sig : ℚ) * 2 ^ f.exp := by
  obtain ⟨hmin, hsig, hlead⟩ := hform
  obtain ⟨E, hE⟩ : ∃ E : ℕ, f.exp = (E : ℤ) - 149 := ⟨(f.exp + 149).toNat, by omega⟩
  have hE0 : (f.exp + 149).toNat = E := by omega
  have hb : (bits32 f).toNat = E * 2 ^ 23 + f.sig := hE0 ▸ toNat_bits32 f (by omega)
  have hn := n.toNat_lt
  have hwn : w.toNat = n.toNat * 2 ^ 31 + (E * 2 ^ 23 + f.sig) := by rw [hw, toNat_or_sign _ n (by omega), hb]
  have hfield : w.toNat / 2 ^ 23 % 256 = (E * 2 ^ 23 + f.sig) / 2 ^ 23 := by omega
  have hfrac : w.toNat % 2 ^ 23 = (E * 2 ^ 23 + f.sig) % 2 ^ 23 := by omega
  have htop : w.toNat / 2 ^ 31 % 2 = n.toNat := by omega
  refine ⟨?_, by omega, ?_⟩
  · rw [BitVec.getLsbD, Nat.testBit_eq_decide_div_mod_eq, htop]
    cases n <;> rfl
  · rcases lt_or_ge f.sig (2 ^ 23) with hsub | hnorm
    · have hE1 : E = 0 := by omega
      rw [absVal32Q_of_fields w 0 f.sig (by omega) (by omega), if_pos rfl, hE, hE1]
      rfl
    · rcases Nat.lt_or_eq_of_le hsig with hlt | hcarry
      · have hexp : ((E + 1 : ℕ) : ℤ) - 150 = (E : ℤ) - 149 := by omega
        rw [absVal32Q_of_fields w (E + 1) (f.sig - 2 ^ 23) (by omega) (by omega), if_neg (by omega), Nat.add_sub_cancel' hnorm, hE, hexp]
      · have hexp : ((E + 2 : ℕ) : ℤ) - 150 = ((E : ℤ) - 149) + 1 := by omega
        rw [absVal32Q_of_fields w (E + 2) 0 (by omega) (by omega), if_neg (by omega), hE, hcarry, hexp, zpow_add₀ (by norm_num)]
        push_cast
        ring

/-! ### The roundings of D2F, one after another (R196) -/

theorem fracValue_natCast (n : Nat) : fracValue ⟨n, 1⟩ = n := by simp [fracValue]

theorem fracValue_addShifted (x : Frac) (n k : Nat) (hd : 0 < x.den) :
    fracValue (fracAddShifted x n k) = fracValue x + (n : ℚ) * 2 ^ k := by
  have hd' : (x.den : ℚ) ≠ 0 := by exact_mod_cast hd.ne'
  simp only [fracValue, fracAddShifted, Nat.cast_add, Nat.cast_mul, Nat.cast_pow, Nat.cast_ofNat]
  field_simp

theorem fracDiv_den (x y : Frac) : (fracDiv x y).den = x.den * y.num := rfl

theorem fracValue_div (x y : Frac) : fracValue (fracDiv x y) = fracValue x / fracValue y := by
  simp only [fracValue, fracDiv, Nat.cast_mul, div_div_div_eq]

theorem fl64_den_pos (x : Frac) : 0 < (fl64 x).den := floatValue_den_pos _

theorem num_pos_of_fracValue_pos (x : Frac) (h : 0 < fracValue x) : 0 < x.num :=
  Nat.pos_of_ne_zero fun h0 => by simp [fracValue, h0] at h

/-- A natural number below `2^53` is exact in binary64 (R11). -/
theorem fracValue_fl64_natCast (n : Nat) (h : n < 2 ^ 53) : fracValue (fl64 ⟨n, 1⟩) = n := by
  have hr := fl64_roundsTo ⟨n, 1⟩ Nat.one_pos
  rw [fracValue_natCast] at hr
  exact roundsTo_natCast 53 n (-1074) _ (by norm_num) h hr

/-- One step of the word-by-word sum (R196). -/
theorem fl64_addShifted_roundsTo (x : Frac) (n k : Nat) (hd : 0 < x.den) :
    roundsTo 53 (-1074) (fracValue x + (n : ℚ) * 2 ^ k) (fracValue (fl64 (fracAddShifted x n k))) := by
  have hden : 0 < (fracAddShifted x n k).den := hd
  rw [← fracValue_addShifted x n k hd]
  exact fl64_roundsTo _ hden

/-- The sum of the two lower mantissa words in binary64 (R196). -/
def d2fLowSum (m : Nat) : Frac := fl64 (fracAddShifted (fl64 ⟨m % 2 ^ 32, 1⟩) (m / 2 ^ 32 % 2 ^ 32) 32)

theorem d2fSum_eq (m : Nat) : d2fSum m = fl64 (fracAddShifted (d2fLowSum m) (m / 2 ^ 64 % 2 ^ 32) 64) := by
  rw [d2fSum, d2fLowSum]

theorem d2fLowSum_roundsTo (m : Nat) :
    roundsTo 53 (-1074) (((m % 2 ^ 32 : Nat) : ℚ) + ((m / 2 ^ 32 % 2 ^ 32 : Nat) : ℚ) * 2 ^ 32) (fracValue (d2fLowSum m)) := by
  rw [← fracValue_fl64_natCast (m % 2 ^ 32) (by omega), d2fLowSum]
  exact fl64_addShifted_roundsTo _ _ _ (fl64_den_pos _)

/-- The whole sum rounds the lower words' sum plus the high word (R196). -/
theorem d2fSum_roundsTo (m : Nat) (hm : m < 2 ^ 96) :
    roundsTo 53 (-1074) (fracValue (d2fLowSum m) + ((m / 2 ^ 64 : Nat) : ℚ) * 2 ^ 64) (fracValue (d2fSum m)) := by
  have hhigh : m / 2 ^ 64 % 2 ^ 32 = m / 2 ^ 64 := Nat.mod_eq_of_lt (by omega)
  rw [d2fSum_eq, hhigh]
  exact fl64_addShifted_roundsTo _ _ _ (fl64_den_pos _)

theorem fracValue_nonneg (x : Frac) : 0 ≤ fracValue x := by unfold fracValue; positivity

/-- The sum stays far below the overflow bound. -/
theorem fracValue_d2fSum_le (m : Nat) (hm : m < 2 ^ 96) : fracValue (d2fSum m) ≤ 2 ^ 98 := by
  have hlo : ((m % 2 ^ 32 : ℕ) : ℚ) ≤ 2 ^ 32 := by exact_mod_cast (Nat.mod_lt m (by positivity)).le
  have hmid : ((m / 2 ^ 32 % 2 ^ 32 : ℕ) : ℚ) ≤ 2 ^ 32 := by exact_mod_cast (Nat.mod_lt _ (by positivity)).le
  have hhigh : ((m / 2 ^ 64 : ℕ) : ℚ) ≤ 2 ^ 32 := by exact_mod_cast (show m / 2 ^ 64 ≤ 2 ^ 32 by omega)
  have h1 := (roundsTo_bounds _ _ _ _ (by positivity) (by norm_num) (d2fLowSum_roundsTo m)).2
  have h2 := (roundsTo_bounds _ _ _ _ (add_nonneg (fracValue_nonneg _) (by positivity)) (by norm_num) (d2fSum_roundsTo m hm)).2
  generalize ((m % 2 ^ 32 : ℕ) : ℚ) = lo, ((m / 2 ^ 32 % 2 ^ 32 : ℕ) : ℚ) = mid, ((m / 2 ^ 64 : ℕ) : ℚ) = hi at *
  linarith

/-- The power of ten in binary64 (R196). -/
theorem d2fPower_roundsTo (k : Nat) : roundsTo 53 (-1074) (10 ^ k) (fracValue (fl64 ⟨10 ^ k, 1⟩)) := by
  have h := fl64_roundsTo ⟨10 ^ k, 1⟩ Nat.one_pos
  rwa [fracValue_natCast, Nat.cast_pow] at h

theorem quarter_le_d2fPower (k : Nat) : 1 / 4 ≤ fracValue (fl64 ⟨10 ^ k, 1⟩) := by
  have hone : (1 : ℚ) ≤ 10 ^ k := one_le_pow₀ (by norm_num)
  have := (roundsTo_bounds _ _ _ _ (by positivity) (by norm_num) (d2fPower_roundsTo k)).1
  linarith

/-- The binary64 quotient that D2F narrows (R196). -/
def d2fQuotient (v : Dec) : Frac := fl64 (fracDiv (d2fSum v.m) (fl64 ⟨10 ^ v.s, 1⟩))

theorem semD2f_eq (v : Dec) :
    semD2f v = (bits32 (fl32 (d2fQuotient v)) ||| (if v.neg then 0x80000000#32 else 0#32), .ok) := rfl

theorem d2fQuotient_roundsTo (v : Dec) :
    roundsTo 53 (-1074) (fracValue (d2fSum v.m) / fracValue (fl64 ⟨10 ^ v.s, 1⟩)) (fracValue (d2fQuotient v)) := by
  have hpow : 0 < fracValue (fl64 ⟨10 ^ v.s, 1⟩) := by linarith [quarter_le_d2fPower v.s]
  rw [← fracValue_div]
  exact fl64_roundsTo _ (by rw [fracDiv_den]; exact Nat.mul_pos (fl64_den_pos _) (num_pos_of_fracValue_pos _ hpow))

theorem fracValue_d2fQuotient_le (v : Dec) (hm : v.m < 2 ^ 96) : fracValue (d2fQuotient v) ≤ 2 ^ 102 := by
  have hpow := quarter_le_d2fPower v.s
  have hquot : fracValue (d2fSum v.m) / fracValue (fl64 ⟨10 ^ v.s, 1⟩) ≤ 2 ^ 98 / (1 / 4) :=
    div_le_div₀ (by positivity) (fracValue_d2fSum_le v.m hm) (by norm_num) hpow
  have h := (roundsTo_bounds _ _ _ _ (div_nonneg (fracValue_nonneg _) (fracValue_nonneg _)) (by norm_num) (d2fQuotient_roundsTo v)).2
  linarith

/-- A rounded float of value at most `2^102` has an exponent that packs. -/
theorem fl32_exp_le (x : Frac) (hd : 0 < x.den) (h : fracValue x ≤ 2 ^ 102) : (fl32 x).exp ≤ 100 := by
  obtain ⟨-, -, hlead⟩ := fl32_roundedForm x hd
  have hle := (roundsTo_bounds _ _ _ _ (fracValue_nonneg x) (by norm_num) (fl32_roundsTo x hd)).2
  by_contra! hgt
  have hsig : (2 : ℚ) ^ 23 ≤ (fl32 x).sig := by exact_mod_cast hlead.resolve_left (by omega)
  have hexp : (2 : ℚ) ^ (101 : ℤ) ≤ 2 ^ (fl32 x).exp := zpow_le_zpow_right₀ (by norm_num) (by omega)
  have hbig : (2 : ℚ) ^ 23 * 2 ^ (101 : ℤ) ≤ (fl32 x).sig * 2 ^ (fl32 x).exp := by gcongr
  linarith

theorem encode_d2f (d a : Fin 8) : encode (.d2f (regField d) (regField a)) = commandWord 0 a d 0x33 := by
  rw [encode, wordOf_eq_commandWord, toNat_regField, toNat_regField]
  rfl

/-- Settles O45: every rounding of `semD2f` meets `roundsTo`, and the last one packs into a finite pattern. -/
theorem d2fRoundsAtEveryStep : Obligations.D2fRoundsAtEveryStep := by
  rintro d a s x ha rfl
  have hm : (operand s a).m < 2 ^ 96 := mantOf_lt _
  have hden : 0 < (d2fQuotient (operand s a)).den := fl64_den_pos _
  obtain ⟨hsign, hfinite, hvalue⟩ := bits32_denotes _ _ (operand s a).neg
    (fl32_roundedForm _ hden) (fl32_exp_le _ hden (fracValue_d2fQuotient_le _ hm)) rfl
  refine ⟨encode_d2f d a, _, _, _, _, _, ?_, hsign, hfinite, d2fLowSum_roundsTo _, d2fSum_roundsTo _ hm, d2fPower_roundsTo _,
    d2fQuotient_roundsTo _, hvalue ▸ fl32_roundsTo _ hden⟩
  rw [exec, execD2f, runSD_eq_afterS _ d a s ha, semD2f_eq]

end Sys2Proof.Machine
end

section
/-! SUPPORT. What a step can do to DCORE's own state: a completion, a window write, a reset, or nothing (R50, R51, R72). -/

namespace Sys2Proof.Machine

/-- The two states agree on all of DCORE's state: registers, STATUS, CMD and latch (R20). -/
def sameDcore (s t : State) : Prop := t.regs = s.regs ∧ t.status = s.status ∧ t.cmd = s.cmd ∧ t.latch = s.latch

/-- A write to a window register is ignored with PV set, stores a register, is accepted as a command, clears sticky bits, or does
nothing; only an idle DCORE takes a register or a command (R26, R28, R42, R44). -/
theorem writeReg_cases (reg : WindowReg) (v : Word) (s : State) :
    (s.busy = true ∧ writeReg reg v s = ignoreBusyWrite s) ∨
    (s.busy = false ∧ ∃ r, writeReg reg v s = { s with regs := r }) ∨
    (s.busy = false ∧ writeReg reg v s = accept v s) ∨
    (reg = .status ∧ writeReg reg v s = { s with status := clearSticky v s.status }) ∨
    writeReg reg v s = s := by
  cases reg with
  | dword n k | sreg n =>
    cases hb : s.busy
    · exact .inr (.inl ⟨rfl, _, by simp only [writeReg, hb]; rfl⟩)
    · exact .inl ⟨rfl, by simp only [writeReg, hb]; rfl⟩
  | cmd =>
    cases hb : s.busy
    · exact .inr (.inr (.inl ⟨rfl, by simp only [writeReg, hb]; rfl⟩))
    · exact .inl ⟨rfl, by simp only [writeReg, hb]; rfl⟩
  | status => exact .inr (.inr (.inr (.inl ⟨rfl, rfl⟩)))
  | reserved => exact .inr (.inr (.inr (.inr rfl)))

/-- Only offset 0xA4 holds STATUS (R41). -/
theorem windowReg_eq_status (off : Nat) (h : windowReg off = .status) : off = 0xA4 := by
  unfold windowReg at h
  split_ifs at h
  assumption

/-- A host move is a window write, a reset, or leaves DCORE as it is (R59, R69). -/
theorem hostMove_cases (op : HostOp) (s t : State) (h : hostMove op s = .next t) :
    (∃ off v, op = memWrite off v ∧ t = advance (windowWrite off v s)) ∨
    (op = .reset ∧ t = advance (resetDcore s)) ∨ sameDcore s t := by
  cases op with
  | write addr bytes v =>
    cases hoff : windowOffset addr bytes with
    | error f => simp [hostMove, hoff] at h
    | ok off =>
      obtain ⟨rfl, rfl, -, -⟩ := windowOffset_eq_ok addr bytes off hoff
      simp only [hostMove, hoff, Host.Outcome.next.injEq] at h
      exact .inl ⟨off, v, rfl, h.symm⟩
  | read addr bytes =>
    cases hoff : windowOffset addr bytes with
    | error f => simp [hostMove, hoff] at h
    | ok off =>
      simp only [hostMove, hoff, Host.Outcome.next.injEq] at h
      exact .inr (.inr (h ▸ ⟨rfl, rfl, rfl, rfl⟩))
  | readStatus | jump target | halt => cases h; exact .inr (.inr ⟨rfl, rfl, rfl, rfl⟩)
  | wait => cases h; right; right; split <;> exact ⟨rfl, rfl, rfl, rfl⟩
  | branch c target => cases h; right; right; split <;> exact ⟨rfl, rfl, rfl, rfl⟩
  | reset => cases h; exact .inr (.inl ⟨rfl, rfl⟩)

/-- A step with no completion due is a host move after one tick of the latency: a window write, a reset, or no change of DCORE. -/
theorem step_cases_of_not_due (s t : State) (hdue : dueWord s = none) (h : step s = .next t) :
    (∃ off v, hostNext s = some (memWrite off v) ∧ t = advance (windowWrite off v (tick s))) ∨
    (hostNext s = some .reset ∧ t = advance (resetDcore (tick s))) ∨ sameDcore (tick s) t := by
  rw [step_of_not_due s hdue] at h
  cases hop : hostNext s with
  | some op =>
    simp only [hostTurn, hop] at h
    simpa using hostMove_cases op (tick s) t h
  | none =>
    have hlatch : s.latch = none := Option.eq_none_iff_forall_ne_some.2 fun l hl => by
      simpa [hostDone, hop] using ((dueWord_eq_none s).1 hdue l hl).2
    simp only [hostTurn, hop, Host.Outcome.next.injEq] at h
    exact .inr (.inr (h ▸ ⟨rfl, rfl, rfl, by simp [hlatch]⟩))

/-- A step that answers is a completion or a step with none due. -/
theorem step_completes_or_not_due (s t : State) (h : step s = .next t) :
    (∃ w ec, t = completeWith w ec s) ∨ dueWord s = none := by
  cases hdue : dueWord s with
  | none => exact .inr rfl
  | some c =>
    obtain ⟨w, ec, hc⟩ := step_of_due s c hdue
    rw [hc, Host.Outcome.next.injEq] at h
    exact .inl ⟨w, ec, h.symm⟩

/-! ### The latch keeps matching CMD and the registers -/

/-- An empty latch matches. -/
theorem latchMatches_of_latch_none (s : State) (h : s.latch = none) : latchMatches s := by
  intro l hl
  rw [h] at hl
  cases hl

/-- Whether the latch matches rests on CMD, registers and latch alone. -/
theorem latchMatches_congr (s t : State) (hr : t.regs = s.regs) (hc : t.cmd = s.cmd) (hl : t.latch = s.latch) :
    latchMatches t ↔ latchMatches s := by
  simp only [latchMatches, hr, hc, hl]

/-- A tick of the latency changes nothing the latch took (R72). -/
theorem latchMatches_tick (s : State) (h : latchMatches s) : latchMatches (tick s) := by
  intro l hl
  obtain ⟨l', hl', rfl⟩ := Option.map_eq_some_iff.1 hl
  exact h l' hl'

/-- No window write breaks the match: BUSY protects it, and an accepted command makes it (R44, R70). -/
theorem latchMatches_windowWrite (off : Nat) (v : Word) (s : State) (h : latchMatches s) : latchMatches (windowWrite off v s) := by
  rw [windowWrite]
  rcases writeReg_cases (windowReg off) v s with ⟨-, hw⟩ | ⟨hb, r, hw⟩ | ⟨-, hw⟩ | ⟨-, hw⟩ | hw <;> rw [hw]
  · exact (latchMatches_congr s _ rfl rfl rfl).2 h
  · exact latchMatches_of_latch_none _ (by simpa [State.busy] using hb)
  · intro l hl
    cases hl
    exact ⟨rfl, rfl⟩
  · exact (latchMatches_congr s _ rfl rfl rfl).2 h
  · exact h

/-- Settles O9: a completion and a reset empty the latch, and every other step is a tick and at most a window write. -/
theorem stepKeepsLatchMatchingRegisters : Obligations.StepKeepsLatchMatchingRegisters := by
  intro s t h hstep
  rcases step_completes_or_not_due s t hstep with ⟨w, ec, rfl⟩ | hdue
  · exact latchMatches_of_latch_none _ rfl
  · rcases step_cases_of_not_due s t hdue hstep with ⟨off, v, -, rfl⟩ | ⟨-, rfl⟩ | ⟨hr, -, hc, hl⟩
    · exact (latchMatches_congr _ _ rfl rfl rfl).2 (latchMatches_windowWrite off v _ (latchMatches_tick s h))
    · exact latchMatches_of_latch_none _ rfl
    · exact (latchMatches_congr _ t hr hc hl).2 (latchMatches_tick s h)

/-- Settles O8: at reset the latch and the script are empty. -/
theorem resetMeetsInvariants : Obligations.ResetMeetsInvariants :=
  ⟨latchMatches_of_latch_none _ rfl, fun _ hop => nomatch hop⟩

/-! ### What a host move leaves of STATUS and of a busy DCORE -/

/-- No window write writes EC or CF (R35, R36). -/
theorem windowWrite_ec_cf (off : Nat) (v : Word) (s : State) :
    (windowWrite off v s).status.ec = s.status.ec ∧ (windowWrite off v s).status.cf = s.status.cf := by
  rw [windowWrite]
  rcases writeReg_cases (windowReg off) v s with ⟨-, hw⟩ | ⟨-, r, hw⟩ | ⟨-, hw⟩ | ⟨-, hw⟩ | hw <;>
    rw [hw] <;> exact ⟨rfl, rfl⟩

/-- While BUSY = 1 no window write changes a register or CMD (R44, R48). -/
theorem windowWrite_regs_cmd_of_busy (off : Nat) (v : Word) (s : State) (hb : s.busy = true) :
    (windowWrite off v s).regs = s.regs ∧ (windowWrite off v s).cmd = s.cmd := by
  rw [windowWrite]
  rcases writeReg_cases (windowReg off) v s with ⟨-, hw⟩ | ⟨hidle, -⟩ | ⟨hidle, -⟩ | ⟨-, hw⟩ | hw
  · rw [hw]; exact ⟨rfl, rfl⟩
  · simp [hb] at hidle
  · simp [hb] at hidle
  · rw [hw]; exact ⟨rfl, rfl⟩
  · rw [hw]; exact ⟨rfl, rfl⟩

/-- No window write but one to STATUS clears a sticky bit (R37). -/
theorem windowWrite_sticky (off : Nat) (v : Word) (s : State) (hoff : off ≠ 0xA4) :
    (s.status.es = true → (windowWrite off v s).status.es = true) ∧
      (s.status.pv = true → (windowWrite off v s).status.pv = true) := by
  rw [windowWrite]
  rcases writeReg_cases (windowReg off) v s with ⟨-, hw⟩ | ⟨-, r, hw⟩ | ⟨-, hw⟩ | ⟨hst, -⟩ | hw
  · rw [hw]; exact ⟨id, fun _ => rfl⟩
  · rw [hw]; exact ⟨id, id⟩
  · rw [hw]; exact ⟨id, id⟩
  · exact absurd (windowReg_eq_status off hst) hoff
  · rw [hw]; exact ⟨id, id⟩

/-- A tick changes no word and no registers that the latch took. -/
theorem tick_latch_taken (s : State) :
    (tick s).latch.map (fun l => (l.word, l.regs)) = s.latch.map (fun l => (l.word, l.regs)) := by
  simp [Function.comp_def]

/-- Settles O18: with no completion due and no reset, a step is a tick and at most a window write. -/
theorem hostMovesKeepResults : Obligations.HostMovesKeepResults := by
  intro s t hdue hreset hstep
  rcases step_cases_of_not_due s t ((not_completionDue_iff s).1 hdue) hstep with ⟨off, v, -, rfl⟩ | ⟨hr, -⟩ | ⟨hr, hst, hc, hl⟩
  · obtain ⟨hec, hcf⟩ := windowWrite_ec_cf off v (tick s)
    refine ⟨hec, hcf, fun hb => ?_⟩
    have hbt : (tick s).busy = true := by rw [tick_busy, hb]
    obtain ⟨hregs, hcmd⟩ := windowWrite_regs_cmd_of_busy off v (tick s) hbt
    refine ⟨hregs, hcmd, ?_⟩
    rw [advance_latch, windowWrite_latch_of_busy off v (tick s) hbt, tick_latch_taken]
  · exact absurd hr hreset
  · exact ⟨congrArg Status.ec hst, congrArg Status.cf hst, fun _ => ⟨hr, hc, by rw [hl, tick_latch_taken]⟩⟩

/-- A completion clears no sticky bit (R37, R222). -/
theorem completeWith_sticky (w : Write) (ec : ErrorCode) (s : State) :
    (completeWith w ec s).status.es = (s.status.es || ec != .ok) ∧ (completeWith w ec s).status.pv = s.status.pv := by
  cases w <;> exact ⟨rfl, rfl⟩

/-- Settles O19: a completion only sets ES, and a window write elsewhere than STATUS only sets PV. -/
theorem stickyBitsHold : Obligations.StickyBitsHold := by
  intro s t hstep hreset hclear
  rcases step_completes_or_not_due s t hstep with ⟨w, ec, rfl⟩ | hdue
  · obtain ⟨hes, hpv⟩ := completeWith_sticky w ec s
    exact ⟨fun h => by rw [hes, h, Bool.true_or], fun h => hpv.trans h⟩
  · rcases step_cases_of_not_due s t hdue hstep with ⟨off, v, hop, rfl⟩ | ⟨hr, -⟩ | ⟨-, hst, -, -⟩
    · exact windowWrite_sticky off v (tick s) fun hoff => hclear v (hoff ▸ hop)
    · exact absurd hr hreset
    · rw [hst]; exact ⟨id, id⟩

/-! ### Host moves in a step -/

/-- With none due a step is the host's next move, after one tick of the latency (R51). -/
theorem step_of_hostNext (s : State) (op : HostOp) (hdue : ∀ l, ¬ completionDue s l) (hop : hostNext s = some op) :
    step s = hostMove op (tick s) := by
  rw [step_of_not_due s ((not_completionDue_iff s).1 hdue), hostTurn, hop]

/-- Settles O57: the move is `resetDcore`. -/
theorem resetSignalDiscardsCommand : Obligations.ResetSignalDiscardsCommand := by
  intro s hdue hop
  exact ⟨_, step_of_hostNext s .reset hdue hop, rfl, rfl, rfl, rfl, rfl⟩

/-- A write move inside the window performs the window write (R41, R59). -/
theorem hostMove_memWrite (off : Nat) (v : Word) (s : State) (hlt : off < 256) (hmod : off % 4 = 0) :
    hostMove (memWrite off v) s = .next (advance (windowWrite off v s)) := by
  simp only [memWrite, hostMove, windowOffset_inside off hlt hmod]

/-- The EC field of a STATUS value as a number (R26). -/
theorem toNat_ecField (st : Word) : (st.extractLsb' 0 3).toNat = st.toNat % 8 := by
  rw [Laws.toNat_field, pow_zero, Nat.div_one]
  rfl

/-- `IF EC = k` tests the EC field (R26, R69). -/
theorem condHolds_ecIs (k : Nat) (st : Word) : condHolds (.ecIs k) st = decide (st.toNat % 8 = k) := by
  rw [condHolds, toNat_ecField]
  rfl

/-- `IF EC /= k` tests the EC field (R26, R69). -/
theorem condHolds_ecIsNot (k : Nat) (st : Word) : condHolds (.ecIsNot k) st = decide (st.toNat % 8 ≠ k) := by
  rw [condHolds, toNat_ecField, bne, decide_not]
  rfl

/-- `IF CF = b` tests bit 3 (R26, R69). -/
theorem condHolds_cfIs (b : Bool) (st : Word) : condHolds (.cfIs b) st = decide (st.getLsbD 3 = b) := by
  rw [condHolds]
  exact beq_eq_decide ..

/-- A branch move goes to its target or to the next move (R69). -/
theorem hostMove_branch (c : HostCond) (target : Nat) (s : State) :
    hostMove (.branch c target) s = .next { s with hpc := if condHolds c s.st then target else s.hpc + 1 } := by
  rw [hostMove]
  split <;> rfl

/-- Offset 0xA4 reads as STATUS (R26, R41). -/
theorem windowRead_status (s : State) : windowRead 0xA4 s = statusWord s.status s.busy := rfl

/-- Settles O60, one clause for each move. -/
theorem hostMovesAct : Obligations.HostMovesAct := by
  rintro s _ hdue rfl
  refine ⟨fun off v hlt hmod hop => ?_, fun hop => ?_, fun c target hop => ?_, fun target hop => ?_⟩ <;>
    rw [step_of_hostNext s _ hdue hop]
  · rw [hostMove_memWrite off v _ hlt hmod, advance, (windowWrite_host off v (tick s)).2.1]
    rfl
  · rw [windowRead_status, ← tick_busy s]
    rfl
  · rw [hostMove_branch]
    cases c with
    | ecIs k => rw [condHolds_ecIs]; rfl
    | ecIsNot k => rw [condHolds_ecIsNot]; rfl
    | cfIs b => rw [condHolds_cfIs]; rfl
    | esSet => rfl
  · rfl

end Sys2Proof.Machine
end

section
/-! SUPPORT. What the completion of a command writes and leaves, on every operand (R33, R71, R72, R222, R223). -/

namespace Sys2Proof.Machine

/-- The fields every completion leaves, its sticky bits and the emptied latch (R72, R222, R29). -/
theorem completeWith_frame (w : Write) (ec : ErrorCode) (s : State) :
    (completeWith w ec s).status.es = (s.status.es || (completeWith w ec s).status.ec != .ok) ∧
      (completeWith w ec s).status.pv = s.status.pv ∧ (completeWith w ec s).cmd = s.cmd ∧ (completeWith w ec s).latch = none ∧
      (completeWith w ec s).script = s.script ∧ (completeWith w ec s).hpc = s.hpc ∧ (completeWith w ec s).st = s.st ∧
      (completeWith w ec s).replies = s.replies ∧ (completeWith w ec s).accepted = s.accepted := by
  obtain ⟨hes, hpv⟩ := completeWith_sticky w ec s
  exact ⟨hes, hpv, rfl, rfl, rfl, rfl, rfl, rfl, rfl⟩

/-- Settles O14: each of the four ways a command ends writes its destination alone. -/
theorem commandFrame : Obligations.CommandFrame := by
  intro i s t h
  rcases exec_cases i s with he | ⟨d, v, ec, hd, he, -⟩ | ⟨d, v, ec, hd, he, -⟩ | ⟨b, hcmp, he⟩ <;>
    rw [he, Host.Outcome.next.injEq] at h <;> subst h
  · exact ⟨fun _ _ => rfl, fun _ _ => rfl, fun _ => rfl, completeWith_frame _ _ s⟩
  · exact ⟨fun n hn => readD_writeD_other _ _ fun e => hn (e ▸ hd), fun _ _ => rfl, fun _ => rfl, completeWith_frame _ _ s⟩
  · exact ⟨fun _ _ => rfl, fun n hn => readS_writeS_other _ _ fun e => hn (e ▸ hd), fun _ => rfl, completeWith_frame _ _ s⟩
  · exact ⟨fun _ _ => rfl, fun _ _ => rfl, fun hc => by simp [hcmp] at hc, completeWith_frame _ _ s⟩

/-! ### The check of the decimal operands -/

/-- A command fails validation, or every field of a decimal source names a register that holds a well-formed pattern (R23, R71). -/
theorem exec_invalid_or_sources_wellFormed (i : Instr) (s : State) :
    exec i s = .next (completeInvalid s) ∨
      ∀ f ∈ decimalSources i, ∃ n, regIndex f = some n ∧ wellFormedD (readD (sources s) n) = true := by
  cases i with
  | dadd rd ra rb | dsub rd ra rb | dmul rd ra rb | ddiv rd ra rb =>
    rcases runDDD_cases _ rd ra rb s with h | ⟨d, a, b, -, ha, hb, hwa, hwb, -⟩
    · exact .inl h
    · exact .inr (List.forall_mem_cons.2 ⟨⟨a, ha, hwa⟩, List.forall_mem_singleton.2 ⟨b, hb, hwb⟩⟩)
  | dlt ra rb | dle ra rb | dgt ra rb | dge ra rb | deq ra rb | dne ra rb =>
    rcases runCMP_cases _ ra rb s with h | ⟨a, b, ha, hb, hwa, hwb, -⟩
    · exact .inl h
    · exact .inr (List.forall_mem_cons.2 ⟨⟨a, ha, hwa⟩, List.forall_mem_singleton.2 ⟨b, hb, hwb⟩⟩)
  | dtrunc rd ra | dround rd ra | dfloor rd ra | dneg rd ra =>
    rcases runDD_cases _ rd ra s with h | ⟨d, a, -, ha, hwa, -⟩
    · exact .inl h
    · exact .inr (List.forall_mem_singleton.2 ⟨a, ha, hwa⟩)
  | d2i rd ra | d2f rd ra =>
    rcases runSD_cases _ rd ra s with h | ⟨d, a, -, ha, hwa, -⟩
    · exact .inl h
    · exact .inr (List.forall_mem_singleton.2 ⟨a, ha, hwa⟩)
  | i2d rd ra | f2d rd ra => exact .inr (List.forall_mem_nil _)

/-- R23's condition on the control word. -/
theorem wellFormedD_iff (r : DReg) :
    wellFormedD r = true ↔ (r.w3 &&& 0x7F00FFFF#32 = 0#32 ∧ r.w3.toNat / 2 ^ 16 % 256 ≤ 28) := by
  rw [reservedBits_eq_zero_iff, wellFormedD, scaleOf, BitVec.extractLsb'_toNat, Nat.shiftRight_eq_div_pow]
  simp [and_assoc]

/-- Settles O15: a command checks its decimal operands before it computes. -/
theorem illFormedOperandIsInvalid : Obligations.IllFormedOperandIsInvalid := by
  refine ⟨wellFormedD_iff, fun i s f n _ hf hn hbad => ?_⟩
  rw [← completeInvalid_eq_afterInvalid]
  rcases exec_invalid_or_sources_wellFormed i s with h | h
  · exact h
  · obtain ⟨a, ha, hwa⟩ := h f hf
    obtain rfl : n = a := Option.some.inj (hn.symm.trans ha)
    exact absurd ((operandOk_iff s n).2 hwa) hbad

/-! ### The scales of the results -/

theorem addMagnitudes_scale_le (ma mb s : Nat) (neg : Bool) : (addMagnitudes ma mb s neg).1.s ≤ s := by
  simp only [addMagnitudes]
  split_ifs <;> simp only [zeroDec] <;> omega

theorem subMagnitudes_scale_le (ma mb s : Nat) (na nb : Bool) : (subMagnitudes ma mb s na nb).1.s ≤ s := by
  simp only [subMagnitudes]
  split_ifs <;> exact le_refl s

theorem semDadd_scale_le (a b : Dec) (ha : a.s ≤ 28) (hb : b.s ≤ 28) : (semDadd a b).1.s ≤ 28 := by
  have halign := (align_scale_le ⟨a.m, a.s⟩ ⟨b.m, b.s⟩ 28 ha hb).1
  simp only [semDadd]
  split
  · exact (addMagnitudes_scale_le ..).trans halign
  · exact (subMagnitudes_scale_le ..).trans halign

theorem semDmul_scale_le (a b : Dec) : (semDmul a b).1.s ≤ 28 := by
  have hred := mulReduce_scale_le (a.m * b.m) (a.s + b.s)
  simp only [semDmul]
  split
  · exact Nat.zero_le 28
  · simp only
    split
    · exact Nat.zero_le 28
    · exact hred

theorem semDdiv_scale_le (a b : Dec) (ha : a.s ≤ 28) : (semDdiv a b).1.s ≤ 28 := by
  simp only [semDdiv]
  split_ifs
  · exact Nat.zero_le 28
  · exact Nat.zero_le 28
  · exact divExpand_scale_le _ _ _ _ _ ((Nat.sub_le _ _).trans ha)

theorem f2dFold_scale_le (x : Frac) (e : Int) (h : e ≤ 28) : (f2dFold x e).s ≤ 28 := by
  rw [f2dFold]
  split
  · exact Nat.zero_le 28
  · simp only
    omega

/-- The end of F2D: the range test and the stripped zeros (R193, R194). -/
def f2dFinish (r : Mag) (neg : Bool) : Dec × ErrorCode :=
  if r.m > Config.maxMant then (zeroDec, .invalidArgument)
  else (⟨(normalize r.m r.s).m, (normalize r.m r.s).s, neg⟩, .ok)

theorem semF2d_eq (x : Word) :
    semF2d x =
      if isNanOrInf x then (zeroDec, .overflowLarge)
      else if (absVal32 x).num = 0 then (zeroDec, .ok)
      else if fracLtNat (fracScale10 (absVal32 x) 28) 1 then (zeroDec, .overflowSmall)
      else f2dFinish (f2dFold (absVal32 x) (min (f2dExponent (absVal32 x)) 28)) (x.getLsbD 31) := rfl

theorem f2dFinish_scale_le (r : Mag) (neg : Bool) (h : r.s ≤ 28) : (f2dFinish r neg).1.s ≤ 28 := by
  rw [f2dFinish]
  split
  · exact Nat.zero_le 28
  · exact (normalize_scale_le ..).trans h

theorem semF2d_scale_le (x : Word) : (semF2d x).1.s ≤ 28 := by
  rw [semF2d_eq]
  split_ifs
  · exact Nat.zero_le 28
  · exact Nat.zero_le 28
  · exact Nat.zero_le 28
  · exact f2dFinish_scale_le _ _ (f2dFold_scale_le _ _ (min_le_right _ _))

/-! ### Every decimal value written is well formed -/

/-- Each `D` register of a next state is the old one or well formed (R33). -/
def writesWellFormed (s : State) (r : Result) : Prop :=
  ∀ t, r = .next t → ∀ n, readD t.regs n = readD s.regs n ∨ wellFormedD (readD t.regs n) = true

/-- A completion that leaves the `D` file. -/
theorem writesWellFormed_of_keeps_d (w : Write) (ec : ErrorCode) (s : State) (hd : (writeRegs w s.regs).d = s.regs.d) :
    writesWellFormed s (.next (completeWith w ec s)) := by
  rintro _ ⟨⟩ n
  exact .inl (by simp only [completeWith_regs, readD, hd])

/-- A completion that packs a value of scale at most 28 (R21, R23). -/
theorem writesWellFormed_of_scale_le (d : Fin 8) (v : Dec) (ec : ErrorCode) (s : State) (h : v.s ≤ 28) :
    writesWellFormed s (.next (completeWith (.dreg d (pack v)) ec s)) := by
  rintro _ ⟨⟩ n
  simp only [completeWith_regs, writeRegs]
  by_cases hn : n = d
  · right
    rw [hn, readD_writeD_same]
    exact wellFormedD_pack v h
  · exact .inl (readD_writeD_other _ _ hn)

theorem writesWellFormed_runDDD (sem : Dec → Dec → Dec × ErrorCode) (rd ra rb : RegField) (s : State)
    (hsem : ∀ a b : Dec, a.s ≤ 28 → b.s ≤ 28 → (sem a b).1.s ≤ 28) : writesWellFormed s (runDDD sem rd ra rb s) := by
  rcases runDDD_cases sem rd ra rb s with h | ⟨d, a, b, -, -, -, ha, hb, h⟩ <;> rw [h]
  · exact writesWellFormed_of_keeps_d _ _ s rfl
  · exact writesWellFormed_of_scale_le _ _ _ s (hsem _ _ (scaleOf_le _ ha) (scaleOf_le _ hb))

theorem writesWellFormed_runCMP (rel : Dec → Dec → Bool) (ra rb : RegField) (s : State) :
    writesWellFormed s (runCMP rel ra rb s) := by
  rcases comparison_cases rel ra rb s with h | ⟨b, h⟩ <;> rw [h] <;> exact writesWellFormed_of_keeps_d _ _ s rfl

theorem writesWellFormed_runDD (sem : Dec → Dec × ErrorCode) (rd ra : RegField) (s : State)
    (hsem : ∀ a : Dec, a.s ≤ 28 → (sem a).1.s ≤ 28) : writesWellFormed s (runDD sem rd ra s) := by
  rcases runDD_cases sem rd ra s with h | ⟨d, a, -, -, ha, h⟩ <;> rw [h]
  · exact writesWellFormed_of_keeps_d _ _ s rfl
  · exact writesWellFormed_of_scale_le _ _ _ s (hsem _ (scaleOf_le _ ha))

theorem writesWellFormed_runDS (sem : Word → Dec × ErrorCode) (rd ra : RegField) (s : State)
    (hsem : ∀ x : Word, (sem x).1.s ≤ 28) : writesWellFormed s (runDS sem rd ra s) := by
  rcases runDS_cases sem rd ra s with h | ⟨d, a, -, -, h⟩ <;> rw [h]
  · exact writesWellFormed_of_keeps_d _ _ s rfl
  · exact writesWellFormed_of_scale_le _ _ _ s (hsem _)

theorem writesWellFormed_runSD (sem : Dec → Word × ErrorCode) (rd ra : RegField) (s : State) :
    writesWellFormed s (runSD sem rd ra s) := by
  rcases runSD_cases sem rd ra s with h | ⟨d, a, -, -, -, h⟩ <;> rw [h] <;> exact writesWellFormed_of_keeps_d _ _ s rfl

theorem writesWellFormed_exec (i : Instr) (s : State) : writesWellFormed s (exec i s) := by
  cases i with
  | dadd rd ra rb => exact writesWellFormed_runDDD _ rd ra rb s semDadd_scale_le
  | dsub rd ra rb => exact writesWellFormed_runDDD _ rd ra rb s fun a b => semDadd_scale_le a (setSign b (!b.neg))
  | dmul rd ra rb => exact writesWellFormed_runDDD _ rd ra rb s fun a b _ _ => semDmul_scale_le a b
  | ddiv rd ra rb => exact writesWellFormed_runDDD _ rd ra rb s fun a b ha _ => semDdiv_scale_le a b ha
  | dlt ra rb | dle ra rb | dgt ra rb | dge ra rb | deq ra rb | dne ra rb => exact writesWellFormed_runCMP _ ra rb s
  | dtrunc rd ra | dround rd ra | dfloor rd ra =>
    exact writesWellFormed_runDD _ rd ra s fun _ _ => Nat.zero_le 28
  | dneg rd ra => exact writesWellFormed_runDD _ rd ra s fun _ h => h
  | i2d rd ra => exact writesWellFormed_runDS _ rd ra s fun _ => Nat.zero_le 28
  | f2d rd ra => exact writesWellFormed_runDS _ rd ra s semF2d_scale_le
  | d2i rd ra | d2f rd ra => exact writesWellFormed_runSD _ rd ra s

/-- Settles O11: every command writes a packed value of scale at most 28 or no decimal register. -/
theorem producedDecimalsAreWellFormed : Obligations.ProducedDecimalsAreWellFormed := by
  intro i s t h n
  rw [← wellFormedD_iff]
  exact writesWellFormed_exec i s t h n

end Sys2Proof.Machine
end

section
/-! SUPPORT. Packing undone on well-formed patterns, and the sign bit that DNEG flips (R21, R22, R174). -/

namespace Sys2Proof.Machine

/-- The control word of a well-formed pattern is its sign and its scale (R21, R23). -/
theorem toNat_w3_of_wellFormed (r : DReg) (h : wellFormedD r = true) :
    r.w3.toNat = (if signOf r then 2 ^ 31 else 0) + scaleOf r * 2 ^ 16 := by
  obtain ⟨hlow, hhigh⟩ := (reservedBits_eq_zero_iff r.w3).1 ((wellFormedD_iff r).1 h).1
  have hlow : r.w3.toNat / 2 ^ 0 % 2 ^ 16 = 0 := Laws.toNat_field r.w3 0 16 ▸ congrArg BitVec.toNat hlow
  have hhigh : r.w3.toNat / 2 ^ 24 % 2 ^ 7 = 0 := Laws.toNat_field r.w3 24 7 ▸ congrArg BitVec.toNat hhigh
  have hlt := r.w3.isLt
  rw [scaleOf, Laws.toNat_field, signOf, BitVec.getLsbD, Nat.testBit_eq_decide_div_mod_eq]
  simp only [decide_eq_true_eq]
  split <;> omega

theorem dreg_eq_of_words (r q : DReg) (h0 : r.w0 = q.w0) (h1 : r.w1 = q.w1) (h2 : r.w2 = q.w2) (h3 : r.w3 = q.w3) : r = q := by
  cases r
  cases q
  simp_all

/-- Packing a well-formed pattern's record gives the pattern back (R21, R22). -/
theorem pack_unpack (r : DReg) (h : wellFormedD r = true) : pack (unpack r) = r := by
  have h0 := r.w0.isLt
  have h1 := r.w1.isLt
  have h2 := r.w2.isLt
  have hs : scaleOf r < 256 := (r.w3.extractLsb' 16 8).isLt
  apply dreg_eq_of_words <;> apply BitVec.eq_of_toNat_eq
  case h3 => rw [toNat_w3_pack _ hs, toNat_w3_of_wellFormed r h, unpack]
  all_goals
    simp only [pack, unpack, mantOf, BitVec.toNat_ofNat]
    omega

/-- Adding `2^31` to a 32-bit word flips its bit 31. -/
theorem ofNat_signBit_add (n : Nat) : BitVec.ofNat 32 (2 ^ 31 + n) = BitVec.ofNat 32 n ^^^ 0x80000000#32 := by
  have hsign : (0x80000000#32 : Word) = BitVec.twoPow 32 31 := rfl
  apply BitVec.eq_of_getLsbD_eq
  intro i hi
  rw [BitVec.getLsbD_xor, BitVec.getLsbD_ofNat, BitVec.getLsbD_ofNat, hsign, BitVec.getLsbD_twoPow]
  rcases Nat.lt_or_eq_of_le (Nat.le_of_lt_succ hi) with h | rfl
  · rw [Nat.testBit_two_pow_add_gt h]
    simp [h.ne']
  · rw [Nat.testBit_two_pow_add_eq]
    simp

/-- The record with the other sign packs into the pattern with bit 31 of `w3` flipped (R21, R174). -/
theorem pack_flip (v : Dec) :
    pack { v with neg := !v.neg } = { pack v with w3 := (pack v).w3 ^^^ 0x80000000#32 } := by
  obtain ⟨m, s, neg⟩ := v
  cases neg with
  | false => simp only [pack, Bool.not_false, if_true, Bool.false_eq_true, if_false, Nat.zero_add, ofNat_signBit_add]
  | true =>
    simp only [pack, Bool.not_true, if_true, Bool.false_eq_true, if_false, Nat.zero_add, ofNat_signBit_add]
    rw [BitVec.xor_assoc, BitVec.xor_self, BitVec.xor_zero]

/-- A DD command on a well-formed operand, as its next state (R71, R72). -/
theorem runDD_eq_afterD (sem : Dec → Dec × ErrorCode) (d a : Fin 8) (s : State) (ha : operandOk s a) :
    runDD sem (regField d) (regField a) s = .next (afterD d (sem (operand s a)).1 (sem (operand s a)).2 s) := by
  rw [runDD_ok sem d a s ((operandOk_iff s a).1 ha), completeWith_dreg_eq_afterD]

theorem readD_afterD_same (d : Fin 8) (v : Dec) (ec : ErrorCode) (s : State) : readD (afterD d v ec s).regs d = pack v := by
  rw [← completeWith_dreg_eq_afterD, completeWith_regs, writeRegs, readD_writeD_same]

theorem encode_dneg (d a : Fin 8) : encode (.dneg (regField d) (regField a)) = commandWord 0 a d 0x23 := by
  rw [encode, wordOf_eq_commandWord, toNat_regField, toNat_regField]
  rfl

/-- Settles O38: DNEG flips the record's sign, and so bit 31 of the packed pattern. -/
theorem dnegFlipsSignBit : Obligations.DnegFlipsSignBit := by
  rintro d a s r hok rfl
  refine ⟨encode_dneg d a, ?_, runDD_eq_afterD semDneg d a s hok, ?_⟩
  · rw [operand, unpack, mantOf, scaleOf, Laws.toNat_field, signOf]
    rfl
  · rw [readD_afterD_same, pack_flip (operand s a), pack_unpack _ ((operandOk_iff s a).1 hok)]

end Sys2Proof.Machine
end

section
/-! SUPPORT. STATUS and CMD in the register window, and their reset values (R26, R28, R31, R41, R70, R221). -/

namespace Sys2Proof.Machine

/-- Settles O7: the reset values, register by register. -/
theorem resetHoldsSpecValues : Obligations.ResetHoldsSpecValues := by
  refine ⟨fun n => ⟨?_, ?_⟩, rfl, rfl, rfl, rfl, rfl⟩
  · simp [State.reset, readD, DReg.zero]
  · simp [State.reset, readS]

/-- The EC field of STATUS holds the code (R26, R221). -/
theorem toNat_statusWord_mod (st : Status) (busy : Bool) : (statusWord st busy).toNat % 8 = (ecCode st.ec).toNat := by
  rw [← toNat_ecField, statusWord, BitVec.extractLsb'_append_eq_right]

/-- STATUS as the concatenation of its fields, its width as their sum, which the bit lemmas of `++` ask for (R26). -/
theorem getLsbD_statusWord_append (st : Status) (busy : Bool) (k : Nat) :
    (statusWord st busy).getLsbD k =
      (0#23 ++ BitVec.ofBool busy ++ 0#2 ++ BitVec.ofBool st.pv ++ BitVec.ofBool st.es ++ BitVec.ofBool st.cf ++
        ecCode st.ec : BitVec (23 + 1 + 2 + 1 + 1 + 1 + 3)).getLsbD k := rfl

/-- STATUS bit by bit above EC: CF, ES, PV and BUSY in bits 3, 4, 5 and 8, and zeros (R26). -/
theorem getLsbD_statusWord (st : Status) (busy : Bool) (k : Nat) (h : 3 ≤ k) :
    (statusWord st busy).getLsbD k =
      ((decide (k = 3) && st.cf) || (decide (k = 4) && st.es) || (decide (k = 5) && st.pv) || (decide (k = 8) && busy)) := by
  rw [getLsbD_statusWord_append]
  simp only [BitVec.getLsbD_append, BitVec.getLsbD_ofBool, BitVec.getLsbD_zero]
  by_cases hk : k < 9
  · interval_cases k <;> simp
  · obtain ⟨j, rfl⟩ := Nat.exists_eq_add_of_le' (not_lt.1 hk)
    simp

/-- A write to STATUS, BUSY or not, clears by ones in bits 4 and 5 (R26). -/
theorem windowWrite_status (v : Word) (s : State) :
    windowWrite 0xA4 v s = { s with status := clearSticky v s.status } := rfl

/-- Settles O52: the fields of `statusWord`, and `clearSticky`. -/
theorem statusLayoutAndClear : Obligations.StatusLayoutAndClear := by
  refine ⟨fun s => ?_, fun s v => windowWrite_status v s⟩
  rw [windowRead_status]
  refine ⟨?_, ?_, ?_, ?_, ?_, fun k hk => ?_⟩
  · rw [toNat_statusWord_mod]
    cases s.status.ec <;> rfl
  · simpa using getLsbD_statusWord s.status s.busy 3 (by omega)
  · simpa using getLsbD_statusWord s.status s.busy 4 (by omega)
  · simpa using getLsbD_statusWord s.status s.busy 5 (by omega)
  · simpa using getLsbD_statusWord s.status s.busy 8 (by omega)
  · rw [getLsbD_statusWord _ _ k (by omega)]
    obtain ⟨h3, h4, h5, h8⟩ : k ≠ 3 ∧ k ≠ 4 ∧ k ≠ 5 ∧ k ≠ 8 := by omega
    simp [h3, h4, h5, h8]

/-- A write to CMD is accepted when BUSY = 0 (R28, R70). -/
theorem windowWrite_cmd_of_idle (c : Word) (s : State) (h : s.busy = false) : windowWrite 0xA0 c s = accept c s := by
  have hreg : windowReg 0xA0 = .cmd := rfl
  rw [windowWrite, hreg, writeReg, h]
  rfl

/-- A write to CMD is ignored when BUSY = 1, with PV set (R28, R44). -/
theorem windowWrite_cmd_of_busy (c : Word) (s : State) (h : s.busy = true) : windowWrite 0xA0 c s = ignoreBusyWrite s := by
  have hreg : windowReg 0xA0 = .cmd := rfl
  rw [windowWrite, hreg, writeReg, h]
  rfl

/-- Settles O53: `accept` or `ignoreBusyWrite`, by BUSY. -/
theorem commandAcceptance : Obligations.CommandAcceptance := by
  refine ⟨fun s c h => ?_, fun s c h => windowWrite_cmd_of_busy c s h, fun _ => rfl, rfl⟩
  rw [windowWrite_cmd_of_idle c s h]
  exact ⟨rfl, rfl, ⟨_, rfl, rfl, rfl⟩, rfl, rfl⟩

end Sys2Proof.Machine
end

section
/-! SUPPORT. Host moves inside and outside the contract, and what a read move returns (R43, R45, R49, R51, R59, R220, R229). -/

namespace Sys2Proof.Machine

/-! ### The contract, the faults, and the script -/

/-- An access keeps the contract exactly when it has an offset in the window (R41, R43). -/
theorem accessInContract_iff (addr bytes : Nat) :
    (bytes = 4 ∧ ∃ off, addr = Config.dcoreBase + off ∧ off < 256 ∧ off % 4 = 0) ↔ ∃ off, windowOffset addr bytes = .ok off := by
  constructor
  · rintro ⟨rfl, off, rfl, hlt, hmod⟩
    exact ⟨off, windowOffset_inside off hlt hmod⟩
  · rintro ⟨off, hoff⟩
    obtain ⟨hbytes, haddr, hlt, hmod⟩ := windowOffset_eq_ok addr bytes off hoff
    exact ⟨hbytes, off, haddr, hlt, hmod⟩

/-- A host move faults outside the contract; inside it answers and keeps the script (R43, R229). -/
theorem hostMove_faults_or_keeps_script (op : HostOp) (s : State) :
    (¬ moveInContract op ∧ ∃ f, hostMove op s = .fault f) ∨
      (moveInContract op ∧ ∃ t, hostMove op s = .next t ∧ t.script = s.script) := by
  cases op with
  | write addr bytes v =>
    rw [moveInContract, accessInContract_iff, hostMove]
    cases windowOffset addr bytes with
    | error f => exact .inl ⟨by simp, f, rfl⟩
    | ok off => exact .inr ⟨⟨off, rfl⟩, _, rfl, (windowWrite_host off v s).1⟩
  | read addr bytes =>
    rw [moveInContract, accessInContract_iff, hostMove]
    cases windowOffset addr bytes with
    | error f => exact .inl ⟨by simp, f, rfl⟩
    | ok off => exact .inr ⟨⟨off, rfl⟩, _, rfl, rfl⟩
  | readStatus | jump target | halt | reset => exact .inr ⟨trivial, _, rfl, rfl⟩
  | wait => exact .inr ⟨trivial, _, rfl, by split <;> rfl⟩
  | branch c target => exact .inr ⟨trivial, _, rfl, by split <;> rfl⟩

/-- The host's turn under a script in contract answers and keeps the script (R51, R229). -/
theorem hostTurn_of_scriptInContract (s : State) (h : scriptInContract s) :
    ∃ t, hostTurn s = .next t ∧ t.script = s.script := by
  rw [hostTurn]
  cases hop : hostNext s with
  | none => exact ⟨s, rfl, rfl⟩
  | some op =>
    rcases hostMove_faults_or_keeps_script op (tick s) with ⟨hout, -⟩ | ⟨-, hnext⟩
    · exact absurd (h op (List.mem_of_getElem? hop)) hout
    · exact hnext

/-- Settles O10: a due command completes (R220), and every other step is the host's turn; both keep the script. -/
theorem contractScriptNeverStops : Obligations.ContractScriptNeverStops := by
  intro s h
  have hkeeps : ∃ t, step s = .next t ∧ t.script = s.script := by
    cases hdue : dueWord s with
    | some c =>
      obtain ⟨w, ec, hstep⟩ := step_of_due s c hdue
      exact ⟨_, hstep, rfl⟩
    | none =>
      rw [step_of_not_due s hdue]
      exact hostTurn_of_scriptInContract s h
  obtain ⟨t, hstep, hscript⟩ := hkeeps
  refine ⟨t, hstep, ?_⟩
  rw [scriptInContract, hscript]
  exact h

/-- Settles O55: with none due the step is the host's move. -/
theorem outOfContractAccessFaults : Obligations.OutOfContractAccessFaults := by
  intro s op hdue hop
  rw [step_of_hostNext s op hdue hop]
  rcases hostMove_faults_or_keeps_script op (tick s) with ⟨hout, hfault⟩ | ⟨hin, t, ht, -⟩
  · exact ⟨fun _ => hfault, fun hin => absurd hin hout⟩
  · exact ⟨fun hout => absurd hin hout, fun _ => ⟨t, ht⟩⟩

/-! ### Read moves -/

/-- A read move inside the window gives the host what the window reads (R41, R59). -/
theorem hostMove_memRead (off : Nat) (s : State) (hlt : off < 256) (hmod : off % 4 = 0) :
    hostMove (memRead off) s = .next (advance (reply (windowRead off s) s)) := by
  simp only [memRead, hostMove, windowOffset_inside off hlt hmod]

/-- A `WAIT` move reads STATUS and goes on when BUSY = 0 (R69). -/
theorem hostMove_wait (s : State) :
    hostMove .wait s = .next { pollStatus s with hpc := if s.busy then s.hpc else s.hpc + 1 } := by
  rw [hostMove]
  split <;> rfl

/-- The latency left is no part of what a window register reads (R45). -/
theorem readReg_tick (reg : WindowReg) (s : State) : readReg reg (tick s) = readReg reg s := by
  cases reg with
  | dword n k | sreg n | cmd | reserved => rfl
  | status => rw [readReg, readReg, tick_busy, tick_status]

/-- A tick changes no word of the window (R45). -/
theorem windowRead_tick (off : Nat) (s : State) : windowRead off (tick s) = windowRead off s := readReg_tick _ s

/-- Settles O56: a read move and a `WAIT` move, after one tick. -/
theorem hostReadsObserve : Obligations.HostReadsObserve := by
  refine ⟨fun s off hdue hlt hmod hop => ?_, fun s hdue hop => ?_⟩ <;> rw [step_of_hostNext s _ hdue hop]
  · rw [hostMove_memRead off (tick s) hlt hmod, windowRead_tick]
    rfl
  · rw [hostMove_wait, tick_busy, windowRead_status, ← tick_busy s]
    rfl

end Sys2Proof.Machine
end

section
/-! SUPPORT. The register window as a map: what each offset reads, and what a write leaves of the other words (R41, R42, R44). -/

namespace Sys2Proof.Machine

/-! ### Reads -/

/-- The offset of word `w<k>` of `D[n]` reads as that word (R41). -/
theorem windowRead_dword (n : Fin 8) (k : Fin 4) (s : State) :
    windowRead (0x10 * (n : Nat) + 4 * (k : Nat)) s = dregWord (readD s.regs n) k := by
  rw [windowRead, windowReg_dword, readReg]

/-- The offset of `S[n]` reads as that register (R41). -/
theorem windowRead_sreg (n : Fin 8) (s : State) : windowRead (0x80 + 4 * (n : Nat)) s = readS s.regs n := by
  rw [windowRead, windowReg_sreg, readReg]

/-- A reserved offset reads as 0 (R42). -/
theorem windowRead_reserved (off : Nat) (s : State) (h : 0xA8 ≤ off) : windowRead off s = 0#32 := by
  rw [windowRead, windowReg_reserved off h, readReg]

/-- A reserved offset ignores writes (R42). -/
theorem windowWrite_reserved (off : Nat) (v : Word) (s : State) (h : 0xA8 ≤ off) : windowWrite off v s = s := by
  rw [windowWrite, windowReg_reserved off h, writeReg]

/-- Settles O49: the window map, offset by offset. -/
theorem windowReadMap : Obligations.WindowReadMap := fun s n =>
  ⟨windowRead_dword n 0 s, windowRead_dword n 1 s, windowRead_dword n 2 s, windowRead_dword n 3 s, windowRead_sreg n s, rfl,
    windowRead_status s, fun off h _ => windowRead_reserved off s h⟩

/-- Settles O54: the two lemmas on reserved offsets. -/
theorem reservedOffsets : Obligations.ReservedOffsets := fun s off v h _ _ =>
  ⟨windowRead_reserved off s h, windowWrite_reserved off v s h⟩

/-! ### Writes while BUSY = 1 -/

/-- While BUSY = 1 a write below STATUS is ignored with PV set (R44). -/
theorem windowWrite_of_busy (off : Nat) (v : Word) (s : State) (hb : s.busy = true) (hmod : off % 4 = 0) (hlt : off < 0xA4) :
    windowWrite off v s = ignoreBusyWrite s := by
  rcases window_offsets off (by omega) hmod with ⟨n, k, rfl⟩ | ⟨n, rfl⟩ | rfl | rfl | hres
  · rw [windowWrite, windowReg_dword, writeReg, if_pos hb]
  · rw [windowWrite, windowReg_sreg, writeReg, if_pos hb]
  · exact windowWrite_cmd_of_busy v s hb
  · omega
  · omega

/-- Settles O51: an ignored write, a STATUS write, or a write to a reserved offset. -/
theorem busyWritesAreIgnored : Obligations.BusyWritesAreIgnored := by
  intro s off v hb hmod _
  refine ⟨fun hlt => windowWrite_of_busy off v s hb hmod hlt, ?_, windowWrite_reserved off v s⟩
  rintro rfl
  exact windowWrite_status v s

/-! ### Writes while BUSY = 0 -/

/-- A word of a decimal register reads as written, and its three others as before (R21, R41). -/
theorem dregWord_setDregWord (r : DReg) (j k : Fin 4) (v : Word) :
    dregWord (setDregWord r k v) j = if j = k then v else dregWord r j := by
  fin_cases j <;> fin_cases k <;> rfl

/-- After an idle write to a `D` word that word reads as written, and every other register as before (R41, R48). -/
theorem readReg_writeReg_dword (reg : WindowReg) (n : Fin 8) (k : Fin 4) (v : Word) (s : State) (hb : s.busy = false) :
    readReg reg (writeReg (.dword n k) v s) = if reg = .dword n k then v else readReg reg s := by
  have hwrite : writeReg (.dword n k) v s = { s with regs := writeD s.regs n (setDregWord (readD s.regs n) k v) } := by
    rw [writeReg, if_neg (by simp [hb])]
  rw [hwrite]
  cases reg with
  | dword m j =>
    by_cases hm : m = n
    · subst hm
      simp [readReg, dregWord_setDregWord]
    · simp [readReg, readD_writeD_other _ _ hm, hm]
  | sreg m => simp [readReg]
  | cmd | status | reserved => rfl

/-- After an idle write to an `S` register that register reads as written, and every other one as before (R41, R48). -/
theorem readReg_writeReg_sreg (reg : WindowReg) (n : Fin 8) (v : Word) (s : State) (hb : s.busy = false) :
    readReg reg (writeReg (.sreg n) v s) = if reg = .sreg n then v else readReg reg s := by
  have hwrite : writeReg (.sreg n) v s = { s with regs := writeS s.regs n v } := by
    rw [writeReg, if_neg (by simp [hb])]
  rw [hwrite]
  cases reg with
  | sreg m =>
    by_cases hm : m = n
    · subst hm
      simp [readReg]
    · simp [readReg, readS_writeS_other _ _ hm, hm]
  | dword m j => simp [readReg]
  | cmd | status | reserved => rfl

/-- Only its own offset holds a `D` word (R41). -/
theorem windowReg_eq_dword_iff (off : Nat) (n : Fin 8) (k : Fin 4) (hmod : off % 4 = 0) :
    windowReg off = .dword n k ↔ off = 0x10 * (n : Nat) + 4 * (k : Nat) := by
  refine ⟨fun h => ?_, fun h => h ▸ windowReg_dword n k⟩
  unfold windowReg at h
  split_ifs at h
  simp only [WindowReg.dword.injEq, Fin.ext_iff] at h
  omega

/-- Only its own offset holds an `S` register (R41). -/
theorem windowReg_eq_sreg_iff (off : Nat) (n : Fin 8) (hmod : off % 4 = 0) :
    windowReg off = .sreg n ↔ off = 0x80 + 4 * (n : Nat) := by
  refine ⟨fun h => ?_, fun h => h ▸ windowReg_sreg n⟩
  unfold windowReg at h
  split_ifs at h
  simp only [WindowReg.sreg.injEq, Fin.ext_iff] at h
  omega

/-- After an idle write below CMD the written offset reads as the value, and every other offset as before (R41, R48 to R50). -/
theorem windowRead_windowWrite_of_idle (off off2 : Nat) (v : Word) (s : State) (hb : s.busy = false) (hlt : off < 0xA0)
    (hmod : off % 4 = 0) (hmod2 : off2 % 4 = 0) :
    windowRead off2 (windowWrite off v s) = if off2 = off then v else windowRead off2 s := by
  rcases window_offsets off (by omega) hmod with ⟨n, k, rfl⟩ | ⟨n, rfl⟩ | rfl | rfl | hres
  · simp only [windowRead, windowWrite, windowReg_dword, readReg_writeReg_dword _ n k v s hb, windowReg_eq_dword_iff off2 n k hmod2]
  · simp only [windowRead, windowWrite, windowReg_sreg, readReg_writeReg_sreg _ n v s hb, windowReg_eq_sreg_iff off2 n hmod2]
  · omega
  · omega
  · omega

/-- Settles O50: the two branches of `windowRead_windowWrite_of_idle`. -/
theorem windowReadAfterWrite : Obligations.WindowReadAfterWrite := by
  intro s off v hb hlt hmod
  refine ⟨?_, fun off2 _ hmod2 hne => ?_⟩
  · rw [windowRead_windowWrite_of_idle off off v s hb hlt hmod hmod, if_pos rfl]
  · rw [windowRead_windowWrite_of_idle off off2 v s hb hlt hmod hmod2, if_neg hne]

end Sys2Proof.Machine
end

section
/-! SUPPORT. The decoder and the encoder: what an accepted word is, and R65's mask and match table (R60 to R68). -/

namespace Sys2Proof.Machine

open Sys2Proof.Laws

/-! ### The fields of a word -/

/-- Two words are equal when their five fields are (R60). -/
theorem word_eq_iff_fields (c d : Word) :
    c = d ↔ fieldTop c = fieldTop d ∧ fieldRb c = fieldRb d ∧ fieldRa c = fieldRa d ∧ fieldRd c = fieldRd d ∧
      fieldOpc c = fieldOpc d := by
  constructor
  · rintro rfl
    exact ⟨rfl, rfl, rfl, rfl, rfl⟩
  · simp only [← BitVec.toNat_inj, fieldTop, fieldRb, fieldRa, fieldRd, fieldOpc, toNat_field]
    omega

/-- A word with zeros above bit 19 is the word of its other fields (R60, R68). -/
theorem wordOf_fields (c : Word) (h : fieldTop c = 0#12) : wordOf (fieldRb c) (fieldRa c) (fieldRd c) (fieldOpc c) = c := by
  rw [word_eq_iff_fields, fieldTop_wordOf, fieldRb_wordOf, fieldRa_wordOf, fieldRd_wordOf, fieldOpc_wordOf]
  exact ⟨h.symm, rfl, rfl, rfl, rfl⟩

/-- A command's word is made of the fields it shows (R68). -/
theorem encode_eq_wordOf (i : Instr) :
    encode i = wordOf (shownFields i).1 (shownFields i).2.1 (shownFields i).2.2.1 (shownFields i).2.2.2 := by
  cases i <;> rfl

/-- The fields of every command's word, from those of `wordOf` (R60, R62, R64). -/
theorem fields_encode (i : Instr) : EncodedFields.Statement i := by
  rw [EncodedFields.Statement, encode_eq_wordOf]
  exact fields_wordOf _ _ _ _

/-! ### What an accepted word is -/

theorem decodeDDD_eq_ok_iff (mk : RegField → RegField → RegField → Instr) (c : Word) (i : Instr) :
    decodeDDD mk c = .ok i ↔
      (RegField.named (fieldRd c) && RegField.named (fieldRa c) && RegField.named (fieldRb c)) = true ∧
        mk (fieldRd c) (fieldRa c) (fieldRb c) = i := by
  unfold decodeDDD
  split <;> simp_all

theorem decodeCMP_eq_ok_iff (mk : RegField → RegField → Instr) (c : Word) (i : Instr) :
    decodeCMP mk c = .ok i ↔ fieldRd c = 0#4 ∧ (RegField.named (fieldRa c) && RegField.named (fieldRb c)) = true ∧
      mk (fieldRa c) (fieldRb c) = i := by
  unfold decodeCMP
  split <;> [skip; split] <;> simp_all

theorem decodeUnary_eq_ok_iff (mk : RegField → RegField → Instr) (c : Word) (i : Instr) :
    decodeUnary mk c = .ok i ↔ fieldRb c = 0#4 ∧ (RegField.named (fieldRd c) && RegField.named (fieldRa c)) = true ∧
      mk (fieldRd c) (fieldRa c) = i := by
  unfold decodeUnary
  split <;> [skip; split] <;> simp_all

/-- The decoder reads a command from a word exactly when the command is well formed and the word shows its fields and zeros above
bit 19 (R60 to R66). -/
theorem decode_eq_ok_iff (c : Word) (i : Instr) :
    decode c = .ok i ↔ i.WellFormed = true ∧ fieldTop c = 0#12 ∧
      (fieldRb c, fieldRa c, fieldRd c, fieldOpc c) = shownFields i := by
  constructor
  · intro h
    unfold decode at h
    split at h
    case isTrue => cases h
    case isFalse htop =>
      split at h
      case h_1 hopc | h_2 hopc | h_3 hopc | h_4 hopc =>
        obtain ⟨hnamed, rfl⟩ := (decodeDDD_eq_ok_iff _ _ _).1 h
        exact ⟨hnamed, not_not.1 htop, by simp [shownFields, ← BitVec.toNat_inj, hopc]⟩
      case h_5 hopc | h_6 hopc | h_7 hopc | h_8 hopc | h_9 hopc | h_10 hopc =>
        obtain ⟨hrd, hnamed, rfl⟩ := (decodeCMP_eq_ok_iff _ _ _).1 h
        exact ⟨hnamed, not_not.1 htop, by simp [shownFields, hrd, ← BitVec.toNat_inj, hopc]⟩
      case h_11 hopc | h_12 hopc | h_13 hopc | h_14 hopc | h_15 hopc | h_16 hopc | h_17 hopc | h_18 hopc =>
        obtain ⟨hrb, hnamed, rfl⟩ := (decodeUnary_eq_ok_iff _ _ _).1 h
        exact ⟨hnamed, not_not.1 htop, by simp [shownFields, hrb, ← BitVec.toNat_inj, hopc]⟩
      case h_19 => cases h
  · rintro ⟨hwf, htop, hfields⟩
    cases i with
    | dadd rd ra rb | dsub rd ra rb | dmul rd ra rb | ddiv rd ra rb =>
      obtain ⟨rfl, rfl, rfl, hopc⟩ : fieldRb c = rb ∧ fieldRa c = ra ∧ fieldRd c = rd ∧ fieldOpc c = _ := by
        simpa [shownFields] using hfields
      simpa [decode, htop, hopc] using (decodeDDD_eq_ok_iff _ c _).2 ⟨hwf, rfl⟩
    | dlt ra rb | dle ra rb | dgt ra rb | dge ra rb | deq ra rb | dne ra rb =>
      obtain ⟨rfl, rfl, hrd, hopc⟩ : fieldRb c = rb ∧ fieldRa c = ra ∧ fieldRd c = 0#4 ∧ fieldOpc c = _ := by
        simpa [shownFields] using hfields
      simpa [decode, htop, hopc] using (decodeCMP_eq_ok_iff _ c _).2 ⟨hrd, hwf, rfl⟩
    | dtrunc rd ra | dround rd ra | dfloor rd ra | dneg rd ra | i2d rd ra | f2d rd ra | d2i rd ra | d2f rd ra =>
      obtain ⟨hrb, rfl, rfl, hopc⟩ : fieldRb c = 0#4 ∧ fieldRa c = ra ∧ fieldRd c = rd ∧ fieldOpc c = _ := by
        simpa [shownFields] using hfields
      simpa [decode, htop, hopc] using (decodeUnary_eq_ok_iff _ c _).2 ⟨hrb, hwf, rfl⟩

/-- Settles O1: the word of a command shows its fields. -/
theorem decodeEncodeRoundTrip : Obligations.DecodeEncodeRoundTrip := fun i hwf =>
  (decode_eq_ok_iff (encode i) i).2 ⟨hwf, fields_encode i⟩

/-- Settles O2: an accepted word is the word of the fields it shows. -/
theorem decodedWordIsItsEncoding : Obligations.DecodedWordIsItsEncoding := by
  intro c i h
  obtain ⟨hwf, htop, hfields⟩ := (decode_eq_ok_iff c i).1 h
  refine ⟨hwf, ?_⟩
  rw [encode_eq_wordOf, ← hfields]
  exact wordOf_fields c htop

/-- Settles O4: the decoder run on eighteen closed words. -/
theorem specWordsDecode : Obligations.SpecWordsDecode := by
  unfold Obligations.SpecWordsDecode
  decide

/-! ### The mask and match table of R65 -/

/-- The opcodes of form DDD (R64). -/
def opcodesDDD : List (BitVec 8) := [0x01#8, 0x02#8, 0x03#8, 0x04#8]

/-- The opcodes of form CMP (R64). -/
def opcodesCMP : List (BitVec 8) := [0x10#8, 0x11#8, 0x12#8, 0x13#8, 0x14#8, 0x15#8]

/-- The opcodes of the forms DD, DS and SD (R64). -/
def opcodesUnary : List (BitVec 8) := [0x20#8, 0x21#8, 0x22#8, 0x23#8, 0x30#8, 0x31#8, 0x32#8, 0x33#8]

/-- The fields of a legal word: the opcode of a form, its unused field 0 and its used fields naming registers (R61, R62, R64). -/
def legalFields (rb ra rd : RegField) (o : BitVec 8) : Prop :=
  (o ∈ opcodesDDD ∧ RegField.named rd = true ∧ RegField.named ra = true ∧ RegField.named rb = true) ∨
  (o ∈ opcodesCMP ∧ rd = 0#4 ∧ RegField.named ra = true ∧ RegField.named rb = true) ∨
  (o ∈ opcodesUnary ∧ RegField.named rd = true ∧ RegField.named ra = true ∧ rb = 0#4)

/-- The well-formed commands show the legal fields, one command for each opcode (R61, R62, R64). -/
theorem exists_shownFields_iff (rb ra rd : RegField) (o : BitVec 8) :
    (∃ i : Instr, i.WellFormed = true ∧ (rb, ra, rd, o) = shownFields i) ↔ legalFields rb ra rd o := by
  constructor
  · rintro ⟨i, hwf, hfields⟩
    cases i with
    | dadd rd ra rb | dsub rd ra rb | dmul rd ra rb | ddiv rd ra rb =>
      cases hfields
      exact .inl ⟨by decide, by simpa [Instr.WellFormed, and_assoc] using hwf⟩
    | dlt ra rb | dle ra rb | dgt ra rb | dge ra rb | deq ra rb | dne ra rb =>
      cases hfields
      exact .inr (.inl ⟨by decide, rfl, by simpa [Instr.WellFormed] using hwf⟩)
    | dtrunc rd ra | dround rd ra | dfloor rd ra | dneg rd ra | i2d rd ra | f2d rd ra | d2i rd ra | d2f rd ra =>
      cases hfields
      exact .inr (.inr ⟨by decide, by simpa [Instr.WellFormed] using hwf⟩)
  · rintro (⟨ho, hrd, hra, hrb⟩ | ⟨ho, rfl, hra, hrb⟩ | ⟨ho, hrd, hra, rfl⟩)
    · have hwf : (RegField.named rd && RegField.named ra && RegField.named rb) = true := by simp [hrd, hra, hrb]
      simp only [opcodesDDD, List.mem_cons, List.not_mem_nil, or_false] at ho
      rcases ho with rfl | rfl | rfl | rfl
      exacts [⟨.dadd rd ra rb, hwf, rfl⟩, ⟨.dsub rd ra rb, hwf, rfl⟩, ⟨.dmul rd ra rb, hwf, rfl⟩, ⟨.ddiv rd ra rb, hwf, rfl⟩]
    · have hwf : (RegField.named ra && RegField.named rb) = true := by simp [hra, hrb]
      simp only [opcodesCMP, List.mem_cons, List.not_mem_nil, or_false] at ho
      rcases ho with rfl | rfl | rfl | rfl | rfl | rfl
      exacts [⟨.dlt ra rb, hwf, rfl⟩, ⟨.dle ra rb, hwf, rfl⟩, ⟨.dgt ra rb, hwf, rfl⟩, ⟨.dge ra rb, hwf, rfl⟩,
        ⟨.deq ra rb, hwf, rfl⟩, ⟨.dne ra rb, hwf, rfl⟩]
    · have hwf : (RegField.named rd && RegField.named ra) = true := by simp [hrd, hra]
      simp only [opcodesUnary, List.mem_cons, List.not_mem_nil, or_false] at ho
      rcases ho with rfl | rfl | rfl | rfl | rfl | rfl | rfl | rfl
      exacts [⟨.dtrunc rd ra, hwf, rfl⟩, ⟨.dround rd ra, hwf, rfl⟩, ⟨.dfloor rd ra, hwf, rfl⟩, ⟨.dneg rd ra, hwf, rfl⟩,
        ⟨.i2d rd ra, hwf, rfl⟩, ⟨.f2d rd ra, hwf, rfl⟩, ⟨.d2i rd ra, hwf, rfl⟩, ⟨.d2f rd ra, hwf, rfl⟩]

/-- R65's table, form by form: one mask for all the opcodes of a form. -/
theorem legalRows_eq_forms : legalRows =
    opcodesDDD.map (fun o => (0xFFF888FF#32, wordOf 0#4 0#4 0#4 o)) ++
      opcodesCMP.map (fun o => (0xFFF88FFF#32, wordOf 0#4 0#4 0#4 o)) ++
      opcodesUnary.map (fun o => (0xFFFF88FF#32, wordOf 0#4 0#4 0#4 o)) := rfl

/-- A mask that takes the reserved bits and the opcode in full, against a match that is an opcode alone, field by field. -/
theorem and_mask_eq_wordOf_iff (c mask : Word) (o : BitVec 8) (htop : fieldTop mask = BitVec.allOnes 12)
    (hopc : fieldOpc mask = BitVec.allOnes 8) :
    c &&& mask = wordOf 0#4 0#4 0#4 o ↔
      fieldTop c = 0#12 ∧ fieldRb c &&& fieldRb mask = 0#4 ∧ fieldRa c &&& fieldRa mask = 0#4 ∧
        fieldRd c &&& fieldRd mask = 0#4 ∧ fieldOpc c = o := by
  rw [word_eq_iff_fields, fieldTop_wordOf, fieldRb_wordOf, fieldRa_wordOf, fieldRd_wordOf, fieldOpc_wordOf]
  have hand (lo n : Nat) := BitVec.extractLsb'_and (x := c) (y := mask) (start := lo) (len := n)
  unfold fieldTop fieldRb fieldRa fieldRd fieldOpc at *
  simp only [hand, htop, hopc, BitVec.and_allOnes]

/-- The rows of one form, with the form's masks of RB, RA and RD. -/
theorem exists_row_iff (c mask : Word) (mb ma md : RegField) (opcodes : List (BitVec 8))
    (hmask : (fieldTop mask, fieldRb mask, fieldRa mask, fieldRd mask, fieldOpc mask) =
      (BitVec.allOnes 12, mb, ma, md, BitVec.allOnes 8)) :
    (∃ row ∈ opcodes.map (fun o => (mask, wordOf 0#4 0#4 0#4 o)), c &&& row.1 = row.2) ↔
      fieldTop c = 0#12 ∧ fieldOpc c ∈ opcodes ∧ fieldRd c &&& md = 0#4 ∧ fieldRa c &&& ma = 0#4 ∧ fieldRb c &&& mb = 0#4 := by
  simp only [Prod.mk.injEq] at hmask
  obtain ⟨htop, rfl, rfl, rfl, hopc⟩ := hmask
  simp only [List.mem_map, exists_exists_and_eq_and, and_mask_eq_wordOf_iff c mask _ htop hopc]
  constructor
  · rintro ⟨o, ho, hc, hrb, hra, hrd, rfl⟩
    exact ⟨hc, ho, hrd, hra, hrb⟩
  · rintro ⟨hc, ho, hrd, hra, hrb⟩
    exact ⟨_, ho, hc, hrb, hra, hrd, rfl⟩

/-- The mask 8 of a used field tests that it names a register (R61, R65). -/
theorem and_eight_eq_zero_iff (f : RegField) : f &&& 8#4 = 0#4 ↔ RegField.named f = true := by
  revert f; decide

/-- The mask 15 of an unused field tests that it is 0 (R65). -/
theorem and_fifteen_eq_zero_iff (f : RegField) : f &&& 15#4 = 0#4 ↔ f = 0#4 := by
  revert f; decide

/-- R65's table holds the words with zeros above bit 19 and legal fields below. -/
theorem legalWord_iff (c : Word) :
    legalWord c ↔ fieldTop c = 0#12 ∧ legalFields (fieldRb c) (fieldRa c) (fieldRd c) (fieldOpc c) := by
  rw [legalWord, legalRows_eq_forms]
  simp only [List.mem_append, or_and_right, exists_or, or_assoc,
    exists_row_iff c 0xFFF888FF#32 8#4 8#4 8#4 opcodesDDD rfl, exists_row_iff c 0xFFF88FFF#32 8#4 8#4 15#4 opcodesCMP rfl,
    exists_row_iff c 0xFFFF88FF#32 15#4 8#4 8#4 opcodesUnary rfl, and_eight_eq_zero_iff, and_fifteen_eq_zero_iff,
    ← and_or_left, legalFields]

/-- Settles O3: the decoder and the table both ask for zeros above bit 19 and legal fields below. -/
theorem decoderAcceptsExactlyLegalWords : Obligations.DecoderAcceptsExactlyLegalWords := by
  intro c
  simp only [decode_eq_ok_iff, legalWord_iff, ← exists_shownFields_iff]
  constructor
  · rintro ⟨i, hwf, htop, hfields⟩
    exact ⟨htop, i, hwf, hfields⟩
  · rintro ⟨htop, i, hwf, hfields⟩
    exact ⟨i, hwf, htop, hfields⟩

end Sys2Proof.Machine
end

section
/-! SUPPORT. The dispatch of a due command word, and the validation of its register fields (R61, R66, R70 to R72). -/

namespace Sys2Proof.Machine

/-! ### A due command word -/

/-- A due word that decodes runs its command (R71, R72). -/
theorem step_of_decode_ok (s : State) (l : Latch) (i : Instr) (hdue : completionDue s l) (h : decode l.word = .ok i) :
    step s = exec i s := by
  simp only [step, dueWord_of_completionDue s l hdue, h]

/-- A due word that does not decode completes with InvalidArgument (R66, R71). -/
theorem step_of_decode_error (s : State) (l : Latch) (e : DecodeError) (hdue : completionDue s l) (h : decode l.word = .error e) :
    step s = .next (afterInvalid s) := by
  simp only [step, dueWord_of_completionDue s l hdue, h, completeInvalid_eq_afterInvalid]

theorem decodeTableWord_eq_some_iff (nbits w : Nat) (i : Instr) :
    decodeTableWord nbits w = some i ↔ decode (tableWord nbits w) = .ok i := by
  unfold decodeTableWord
  cases decode (tableWord nbits w) <;> simp [Except.toOption]

/-- The word `withFetchWord` places is due at once. -/
theorem completionDue_withFetchWord (s : State) (nbits w : Nat) :
    completionDue (s.withFetchWord nbits w) ⟨tableWord nbits w, s.regs, 0⟩ := ⟨rfl, .inl rfl⟩

/-- Settles O5: the three answers of a step, and the first of them for a placed word. -/
theorem stepRunsDueCommand : Obligations.StepRunsDueCommand :=
  ⟨step_of_decode_ok, step_of_decode_error, fun s h => step_of_not_due s ((not_completionDue_iff s).1 h),
    fun s nbits w i h => step_of_decode_ok _ _ i (completionDue_withFetchWord s nbits w) ((decodeTableWord_eq_some_iff nbits w i).1 h)⟩

/-- Settles O6: a word that R65 does not call legal does not decode. -/
theorem illegalWordCompletesInvalid : Obligations.IllegalWordCompletesInvalid := by
  intro s l hdue hillegal
  cases hdec : decode l.word with
  | ok i => exact absurd ((decoderAcceptsExactlyLegalWords l.word).1 ⟨i, hdec⟩) hillegal
  | error e => exact step_of_decode_error s l e hdue hdec

/-! ### The register fields of a command -/

theorem named_of_regIndex_eq_some (f : RegField) (n : Fin 8) (h : regIndex f = some n) : RegField.named f = true := by
  cases hf : RegField.named f with
  | true => rfl
  | false => simp [regIndex_eq_none_of_not_named f hf] at h

/-- A command fails validation, or every field it uses names a register (R61, R71). -/
theorem exec_invalid_or_wellFormed (i : Instr) (s : State) : exec i s = .next (completeInvalid s) ∨ i.WellFormed = true := by
  cases i with
  | dadd rd ra rb | dsub rd ra rb | dmul rd ra rb | ddiv rd ra rb =>
    refine (runDDD_cases _ rd ra rb s).imp id fun ⟨d, a, b, hd, ha, hb, _⟩ => ?_
    simp [Instr.WellFormed, named_of_regIndex_eq_some rd d hd, named_of_regIndex_eq_some ra a ha, named_of_regIndex_eq_some rb b hb]
  | dlt ra rb | dle ra rb | dgt ra rb | dge ra rb | deq ra rb | dne ra rb =>
    refine (runCMP_cases _ ra rb s).imp id fun ⟨a, b, ha, hb, _⟩ => ?_
    simp [Instr.WellFormed, named_of_regIndex_eq_some ra a ha, named_of_regIndex_eq_some rb b hb]
  | dtrunc rd ra | dround rd ra | dfloor rd ra | dneg rd ra =>
    refine (runDD_cases _ rd ra s).imp id fun ⟨d, a, hd, ha, _⟩ => ?_
    simp [Instr.WellFormed, named_of_regIndex_eq_some rd d hd, named_of_regIndex_eq_some ra a ha]
  | i2d rd ra | f2d rd ra =>
    refine (runDS_cases _ rd ra s).imp id fun ⟨d, a, hd, ha, _⟩ => ?_
    simp [Instr.WellFormed, named_of_regIndex_eq_some rd d hd, named_of_regIndex_eq_some ra a ha]
  | d2i rd ra | d2f rd ra =>
    refine (runSD_cases _ rd ra s).imp id fun ⟨d, a, hd, ha, _⟩ => ?_
    simp [Instr.WellFormed, named_of_regIndex_eq_some rd d hd, named_of_regIndex_eq_some ra a ha]

/-- Settles O16: only a command whose fields all name registers gets past its validation. -/
theorem unnamedRegisterIsInvalid : Obligations.UnnamedRegisterIsInvalid := by
  intro i s h
  rw [← completeInvalid_eq_afterInvalid]
  rcases exec_invalid_or_wellFormed i s with hinv | hwf
  · exact hinv
  · simp [hwf] at h

end Sys2Proof.Machine
end

section
/-! SUPPORT. The datapath primitives on every input: banker's rounding, normalization, and alignment that rounds (R107, R109 to R112). -/

namespace Sys2Proof.Machine

/-! ### Banker's rounding and normalization -/

/-- Banker's rounding by ten is R12's rounding of `m/10` (R107). -/
theorem divTenRound_eq_rhe (m : Nat) : divTenRound m = rhe ⟨m, 10⟩ := by
  have hcond : m % 10 > 5 ∨ (m % 10 = 5 ∧ m / 10 % 2 = 1) ↔
      2 * (m % 10) > 10 ∨ (2 * (m % 10) = 10 ∧ m / 10 % 2 = 1) := by omega
  simp only [divTenRound, divByTen, rhe, hcond]

/-- Settles O46: `divTenRound` is `rhe` of `m/10`, which is nearest even. -/
theorem divTenRoundIsNearestEven : Obligations.DivTenRoundIsNearestEven := fun m => by
  simpa only [divTenRound_eq_rhe, fracValue, Nat.cast_ofNat] using rhe_nearestEven ⟨m, 10⟩ (by norm_num)

/-- Raising a normalized mantissa back to the scale it started from restores it (R109). -/
theorem normalize_mul_pow (m s : Nat) : (normalize m s).m * 10 ^ (s - (normalize m s).s) = m := by
  simpa [raisedTo] using raisedTo_normalize s m s le_rfl

/-- Normalization stops at scale 0 or at a last digit that is not 0 (R109). -/
theorem normalize_stops (m s : Nat) : (normalize m s).s = 0 ∨ (normalize m s).m % 10 ≠ 0 := by
  induction s generalizing m with
  | zero => exact .inl rfl
  | succ s ih =>
    rw [normalize]
    split
    · exact ih _
    · next hdigit => exact .inr hdigit

/-- Settles O47: a zero goes to scale 0 because its last digit is always 0. -/
theorem normalizeStripsExactZeros : Obligations.NormalizeStripsExactZeros := by
  refine fun m s => ⟨normalize_scale_le m s, normalize_mul_pow m s, normalize_stops m s, ?_⟩
  rintro rfl
  have hzero : (normalize 0 s).m = 0 := (mul_eq_zero.1 (normalize_mul_pow 0 s)).resolve_right (by positivity)
  exact (normalize_stops 0 s).resolve_right (not_not.2 (by rw [hzero]))

/-! ### Alignment -/

/-- Once raising has failed, the loop lowers the larger scale all the way by banker's rounding (R110, R112). -/
theorem alignLoop_lowers (n : Nat) (a b : Mag) (hs : a.s + n = b.s) :
    alignLoop n false a b = (a, ⟨roundedBy n b.m, a.s⟩) := by
  induction n generalizing b with
  | zero => rw [show a.s = b.s from hs]; rfl
  | succ n ih =>
    rw [alignLoop, if_neg (by omega), if_pos (by omega), Bool.false_and, if_neg Bool.false_ne_true]
    exact ih ⟨divTenRound b.m, b.s - 1⟩ (by simp only; omega)

/-- The loop raises the operand of smaller scale `k` times, stopping early only where a further raise would not fit, and lowers the
other for the turns left (R110 to R112). -/
theorem alignLoop_raises_then_lowers (n : Nat) (a b : Mag) (hs : a.s + n = b.s) (hm : a.m ≤ 2 ^ 96 - 1) :
    ∃ k ≤ n, alignLoop n true a b = (⟨a.m * 10 ^ k, a.s + k⟩, ⟨roundedBy (n - k) b.m, a.s + k⟩) ∧
      a.m * 10 ^ k ≤ 2 ^ 96 - 1 ∧ (k < n → 10 * (a.m * 10 ^ k) > 2 ^ 96 - 1) := by
  induction n generalizing a with
  | zero => exact ⟨0, le_rfl, by rw [pow_zero, mul_one]; exact alignLoop_lowers 0 a b hs, by simpa using hm, by simp⟩
  | succ n ih =>
    rw [alignLoop, if_neg (by omega), if_pos (by omega)]
    rcases le_or_gt (10 * a.m) (2 ^ 96 - 1) with hfit | hover
    · obtain ⟨k, hk, hloop, hfits, hmax⟩ := ih ⟨10 * a.m, a.s + 1⟩ (by simp only; omega) hfit
      have hpow : a.m * 10 ^ (k + 1) = 10 * a.m * 10 ^ k := by ring
      refine ⟨k + 1, by omega, ?_, hpow ▸ hfits, fun h => hpow ▸ hmax (by omega)⟩
      rw [mulByTen_of_le _ hfit, Bool.true_and, if_pos rfl, hloop, hpow, Nat.add_sub_add_right, Nat.add_assoc, Nat.add_comm 1 k]
    · refine ⟨0, by omega, ?_, by simpa using hm, fun _ => by simpa using hover⟩
      rw [mulByTen_of_gt _ hover, Bool.true_and, if_neg Bool.false_ne_true, alignLoop_lowers n _ _ (by simp only; omega), pow_zero,
        mul_one]
      rfl

/-- Settles O48: the common scale lies as many turns above `x`'s scale as the loop raises. -/
theorem alignmentRaisesThenLowers : Obligations.AlignmentRaisesThenLowers := by
  intro x y hs hm
  obtain ⟨k, hk, hloop, hfits, hmax⟩ := alignLoop_raises_then_lowers (y.s - x.s) x y (by omega) hm
  have halign : align x y = (⟨x.m * 10 ^ k, x.s + k⟩, ⟨roundedBy (y.s - (x.s + k)) y.m, x.s + k⟩) := by
    rw [align, Nat.sub_eq_zero_of_le hs, Nat.zero_add, hloop, Nat.sub_sub]
  refine ⟨x.s + k, by omega, by omega, ?_⟩
  rw [align_swap x y, halign, Nat.add_sub_cancel_left]
  exact ⟨rfl, rfl, hfits, fun h => hmax (by omega)⟩

end Sys2Proof.Machine
end

section
/-! SUPPORT. The comparisons with their operands exchanged (R110, R150, R155). -/

namespace Sys2Proof.Machine

theorem compareMagnitude_swap (m n : Nat) : compareMagnitude n m = -compareMagnitude m n := by
  unfold compareMagnitude
  rcases lt_trichotomy m n with h | rfl | h
  · simp [h, h.ne', h.not_gt]
  · simp
  · simp [h, h.ne', h.not_gt]

/-- The ordering that the sign of a comparison stands for turns over with the sign (R102, R150). -/
theorem orderingOfSign_neg (c : Int) :
    (if -c < 0 then Ordering.lt else if -c = 0 then .eq else .gt) = (if c < 0 then Ordering.lt else if c = 0 then .eq else .gt).swap := by
  rcases lt_trichotomy c 0 with h | rfl | h
  · rw [if_neg (by omega), if_neg (by omega), if_pos h, Ordering.swap]
  · rfl
  · rw [if_pos (by omega), if_neg (by omega), if_neg (by omega), Ordering.swap]

/-- Exchanging the operands reverses the order (R150). -/
theorem ord_swap (a b : Dec) : ord b a = (ord a b).swap := by
  unfold ord
  by_cases hzero : (isZero a && isZero b) = true
  · rw [if_pos hzero, Bool.and_comm, if_pos hzero, Ordering.swap]
  · rw [if_neg hzero, Bool.and_comm, if_neg hzero]
    by_cases hsign : orderSign a = orderSign b
    · rw [if_neg (not_not.2 hsign), if_neg (not_not.2 hsign.symm), hsign, align_swap (normalize a.m a.s)]
      simp only [Prod.fst_swap, Prod.snd_swap, compareMagnitude_swap (align (normalize a.m a.s) (normalize b.m b.s)).1.m]
      cases orderSign b <;> exact orderingOfSign_neg _
    · rw [if_pos hsign, if_pos (Ne.symm hsign), Bool.eq_not_of_ne hsign]
      cases orderSign b <;> rfl

/-- Exchanging the operands leaves strict equality (R155). -/
theorem eqStrict_comm (a b : Dec) : eqStrict b a = eqStrict a b := by
  rw [eqStrict, eqStrict, align_swap ⟨a.m, a.s⟩, Prod.fst_swap, Prod.snd_swap, BEq.comm (a := b.neg), BEq.comm (a := Mag.m _)]

/-- Two relations that mirror each other give commands that mirror each other, whether or not the operands pass validation (R71). -/
theorem runCMP_exchange (rel rel' : Dec → Dec → Bool) (hrel : ∀ a b, rel a b = rel' b a) (ra rb : RegField) (s : State) :
    runCMP rel ra rb s = runCMP rel' rb ra s := by
  unfold runCMP
  cases regIndex ra with
  | none => cases regIndex rb <;> rfl
  | some a =>
    cases regIndex rb with
    | none => rfl
    | some b =>
      cases ha : wellFormedD (readD (sources s) a) <;> cases hb : wellFormedD (readD (sources s) b) <;> simp [ha, hb, hrel]

/-- Settles O34: `ord` is reversed and `eqStrict` is symmetric. -/
theorem comparisonsExchange : Obligations.ComparisonsExchange := by
  intro ra rb s
  refine ⟨runCMP_exchange _ _ (fun a b => ?_) ra rb s, runCMP_exchange _ _ (fun a b => ?_) ra rb s,
    runCMP_exchange _ _ (fun a b => eqStrict_comm b a) ra rb s,
    runCMP_exchange _ _ (fun a b => congrArg (!·) (eqStrict_comm b a)) ra rb s⟩
  · rw [relDlt, relDgt, ord_swap a b]
    cases ord a b <;> rfl
  · rw [relDle, relDge, ord_swap a b]
    cases ord a b <;> rfl

end Sys2Proof.Machine
end

section
/-! SUPPORT. The restoring long division of R133 is exact (R137). -/

namespace Sys2Proof.Machine

/-- While the quotient and remainder so far are those of the dividend's leading bits, the passes left make them those of the whole
dividend: the shifted remainder is below twice the divisor, so 97 bits hold it (R133). -/
theorem restoringLoop_exact (dividend divisor n q r : Nat) (hdiv : divisor < 2 ^ 96) (hr : r < divisor)
    (hlead : dividend / 2 ^ n = divisor * q + r) :
    restoringLoop dividend divisor n q r = (dividend / divisor, dividend % divisor) := by
  induction n generalizing q r with
  | zero =>
    obtain ⟨hq, hrem⟩ := (Nat.div_mod_unique (by omega)).2 ⟨by rw [Nat.add_comm, ← hlead, pow_zero, Nat.div_one], hr⟩
    rw [restoringLoop, hq, hrem]
  | succ n ih =>
    have hbit : dividend / 2 ^ n = 2 * (dividend / 2 ^ (n + 1)) + dividend / 2 ^ n % 2 := by
      rw [pow_succ, ← Nat.div_div_eq_div_mul]; omega
    have hwide : (2 * r + dividend / 2 ^ n % 2) % 2 ^ 97 = 2 * r + dividend / 2 ^ n % 2 := Nat.mod_eq_of_lt (by omega)
    simp only [restoringLoop, hwide]
    rw [hlead, mul_add, mul_left_comm] at hbit
    split
    · exact ih _ _ (by omega) (by rw [mul_add]; omega)
    · exact ih _ _ (by omega) (by omega)

/-- Settles O28: before the first pass the leading bits, the quotient and the remainder are 0. -/
theorem restoringDivisionIsExact : Obligations.RestoringDivisionIsExact := fun dividend divisor hdividend hpos hdivisor =>
  restoringLoop_exact dividend divisor 96 0 0 hdivisor hpos (by rw [Nat.div_eq_of_lt hdividend, mul_zero])

end Sys2Proof.Machine
end

section
/-! SUPPORT. The word of a DDD command (R68), and DADD and DSUB on every pair of well-formed operands: a carry above scale 0 always fits
after one rounding (R130, R131, R135). -/

namespace Sys2Proof.Machine

/-- The word of a command whose three fields name registers (R68). -/
theorem wordOf_regFields (b a d : Fin 8) (o : BitVec 8) :
    wordOf (regField b) (regField a) (regField d) o = commandWord b a d o.toNat := by
  rw [wordOf_eq_commandWord, toNat_regField, toNat_regField, toNat_regField]

theorem divTenRound_le (m : Nat) : divTenRound m ≤ m := by
  rw [divTenRound]
  split <;> simp only [divByTen] at * <;> omega

theorem roundedBy_succ (k m : Nat) : roundedBy (k + 1) m = roundedBy k (divTenRound m) := rfl

theorem roundedBy_le (k m : Nat) : roundedBy k m ≤ m := by
  induction k generalizing m with
  | zero => exact le_rfl
  | succ k ih => exact (ih (divTenRound m)).trans (divTenRound_le m)

/-- Alignment keeps mantissas within 96 bits (R110). -/
theorem align_mant_le (a b : Mag) (ha : a.m ≤ 2 ^ 96 - 1) (hb : b.m ≤ 2 ^ 96 - 1) :
    (align a b).1.m ≤ 2 ^ 96 - 1 ∧ (align a b).2.m ≤ 2 ^ 96 - 1 := by
  rcases le_total a.s b.s with h | h
  · obtain ⟨S, -, -, halign, -, hfits, -⟩ := alignmentRaisesThenLowers a b h ha
    rw [halign]
    exact ⟨hfits, (roundedBy_le _ _).trans hb⟩
  · obtain ⟨S, -, -, -, halign, hfits, -⟩ := alignmentRaisesThenLowers b a h hb
    rw [halign]
    exact ⟨(roundedBy_le _ _).trans ha, hfits⟩

/-- A carry at scale 0 overflows by the sign (R130, R134). -/
theorem addMagnitudes_overflow (ma mb : Nat) (neg : Bool) (h : ma + mb > 2 ^ 96 - 1) :
    addMagnitudes ma mb 0 neg = (zeroDec, overflowCode neg) := by
  simp [addMagnitudes, h]

/-- A carry at a scale above 0 fits after one rounding (R130, R135). -/
theorem addMagnitudes_carry (ma mb s : Nat) (neg : Bool) (ha : ma ≤ 2 ^ 96 - 1) (hb : mb ≤ 2 ^ 96 - 1) (h : ma + mb > 2 ^ 96 - 1)
    (hs : s ≠ 0) : addMagnitudes ma mb s neg = (⟨roundedBy 1 (ma + mb), s - 1, neg⟩, .ok) := by
  have hround := (divTenRound_bounds (ma + mb)).2
  have hfits : ¬ divTenRound (ma + mb) > Config.maxMant := by simp only [Config.maxMant]; omega
  have hcarry : ma + mb > Config.maxMant ∧ s > 0 := ⟨h, Nat.pos_of_ne_zero hs⟩
  simp only [addMagnitudes, if_pos hcarry, if_neg hfits]
  rfl

/-- DADD of magnitudes of one sign, in the three cases of R130 and R135. -/
theorem addMagnitudes_eq (ma mb s : Nat) (neg : Bool) (ha : ma ≤ 2 ^ 96 - 1) (hb : mb ≤ 2 ^ 96 - 1) :
    addMagnitudes ma mb s neg =
      if ma + mb ≤ 2 ^ 96 - 1 then (⟨ma + mb, s, neg⟩, .ok)
      else if s = 0 then (zeroDec, overflowCode neg)
      else (⟨roundedBy 1 (ma + mb), s - 1, neg⟩, .ok) := by
  split
  · next hle => exact addMagnitudes_of_le ma mb s neg hle
  · next hcarry =>
    split
    · next hs => rw [hs, addMagnitudes_overflow ma mb neg (not_le.1 hcarry)]
    · next hs => exact addMagnitudes_carry ma mb s neg ha hb (not_le.1 hcarry) hs

/-- `sem_DADD` is the sum by rule on mantissas of 96 bits (R130, R135). -/
theorem semDadd_eq_sumByRule (x y : Dec) (hx : x.m ≤ 2 ^ 96 - 1) (hy : y.m ≤ 2 ^ 96 - 1) : semDadd x y = sumByRule x y := by
  obtain ⟨ha, hb⟩ := align_mant_le ⟨x.m, x.s⟩ ⟨y.m, y.s⟩ hx hy
  rw [semDadd, sumByRule, addMagnitudes_eq _ _ _ _ ha hb]
  rfl

/-- `sem_DSUB` is the same rule: the flipped sign leaves the mantissa (R131). -/
theorem semDsub_eq_sumByRule (x y : Dec) (hx : x.m ≤ 2 ^ 96 - 1) (hy : y.m ≤ 2 ^ 96 - 1) :
    semDsub x y = sumByRule x { y with neg := !y.neg } :=
  semDadd_eq_sumByRule x { y with neg := !y.neg } hx hy

/-- The mantissa of any operand has 96 bits (R22). -/
theorem operand_mant_le (s : State) (n : Fin 8) : (operand s n).m ≤ 2 ^ 96 - 1 := Nat.le_sub_one_of_lt (mantOf_lt _)

/-- Settles O20: `semDadd` is the sum by rule on any two operands. -/
theorem daddFollowsRule : Obligations.DaddFollowsRule := fun d a b s ha hb =>
  ⟨wordOf_regFields b a d 0x01#8, by
    rw [exec, execDadd, runDDD_eq_afterD _ d a b s ha hb,
      semDadd_eq_sumByRule _ _ (operand_mant_le s a) (operand_mant_le s b)]⟩

/-- Settles O21: `semDsub` is the sum by rule with the second sign flipped. -/
theorem dsubAddsNegated : Obligations.DsubAddsNegated := fun d a b s ha hb =>
  ⟨wordOf_regFields b a d 0x02#8, by
    rw [exec, execDsub, runDDD_eq_afterD _ d a b s ha hb,
      semDsub_eq_sumByRule _ _ (operand_mant_le s a) (operand_mant_le s b)]⟩

end Sys2Proof.Machine
end

section
/-! SUPPORT. DMUL on every pair of well-formed operands (R132). -/

namespace Sys2Proof.Machine

/-- The reduction loop rounds as long as the product does not fit or the scale exceeds 28, and no longer (R132). -/
theorem mulReduce_eq_roundedBy (p s : Nat) :
    ∃ k ≤ s, (∀ j, j < k → roundedBy j p > 2 ^ 96 - 1 ∨ s - j > 28) ∧
      (k = s ∨ (roundedBy k p ≤ 2 ^ 96 - 1 ∧ s - k ≤ 28)) ∧ mulReduce p s = ⟨roundedBy k p, s - k⟩ := by
  induction s generalizing p with
  | zero => exact ⟨0, le_rfl, by simp, .inl rfl, rfl⟩
  | succ s ih =>
    by_cases hgo : p > 2 ^ 96 - 1 ∨ s + 1 > 28
    · obtain ⟨k, hk, hturns, hstop, hred⟩ := ih (divTenRound p)
      refine ⟨k + 1, by omega, ?_, ?_, ?_⟩
      · rintro (_ | j) hj
        · exact hgo
        · simpa only [roundedBy_succ, Nat.add_sub_add_right] using hturns j (by omega)
      · simpa only [roundedBy_succ, Nat.add_sub_add_right, Nat.add_right_cancel_iff] using hstop
      · rw [mulReduce, if_pos hgo, hred, Nat.add_sub_add_right]
        rfl
    · obtain ⟨hp, hs⟩ := not_or.1 hgo
      exact ⟨0, Nat.zero_le _, by simp, .inr ⟨not_lt.1 hp, not_lt.1 hs⟩, mulReduce_of_fits p (s + 1) (not_lt.1 hp) (not_lt.1 hs)⟩

/-- Settles O23: the roundings are the turns of the reduction loop. -/
theorem dmulFollowsReduction : Obligations.DmulFollowsReduction := by
  rintro d a b s x y ha hb rfl rfl
  obtain ⟨k, hk, hturns, hstop, hred⟩ := mulReduce_eq_roundedBy ((operand s a).m * (operand s b).m) ((operand s a).s + (operand s b).s)
  refine ⟨wordOf_regFields b a d 0x03#8, k, hk, hturns, hstop, ?_⟩
  rw [exec, execDmul, runDDD_eq_afterD _ d a b s ha hb, semDmul, hred]
  split
  · next hover => rw [if_neg (not_le.2 hover)]; rfl
  · next hfits => rw [if_pos (not_lt.1 hfits)]

end Sys2Proof.Machine
end

section
/-! SUPPORT. DDIV: its first loop, its fractional digits, its codes and the bound on its mantissa (R133, R136). -/

namespace Sys2Proof.Machine

/-! ### The first loop -/

/-- Where the dividend cannot be raised, the first loop only lowers the divisor (R133). -/
theorem divRaise_lowers (n da db : Nat) (h : 10 * da > 2 ^ 96 - 1) : divRaise n da db = (da, roundedBy n db) := by
  induction n generalizing db with
  | zero => rfl
  | succ n ih =>
    rw [divRaise, mulByTen_of_gt da h, if_neg Bool.false_ne_true, ih]
    rfl

/-- The first loop raises the dividend `j` times, stopping early only where a further raise would not fit, and lowers the divisor for
the turns left (R133). -/
theorem divRaise_raises_then_lowers (n da db : Nat) (hm : da ≤ 2 ^ 96 - 1) :
    ∃ j ≤ n, divRaise n da db = (da * 10 ^ j, roundedBy (n - j) db) ∧ da * 10 ^ j ≤ 2 ^ 96 - 1 ∧
      (j < n → 10 * (da * 10 ^ j) > 2 ^ 96 - 1) := by
  induction n generalizing da with
  | zero => exact ⟨0, le_rfl, by rw [pow_zero, mul_one]; rfl, by simpa using hm, by simp⟩
  | succ n ih =>
    rcases le_or_gt (10 * da) (2 ^ 96 - 1) with hfit | hover
    · obtain ⟨j, hj, hloop, hfits, hmax⟩ := ih (10 * da) hfit
      have hpow : da * 10 ^ (j + 1) = 10 * da * 10 ^ j := by ring
      refine ⟨j + 1, by omega, ?_, hpow ▸ hfits, fun h => hpow ▸ hmax (by omega)⟩
      rw [divRaise, mulByTen_of_le da hfit, if_pos rfl, hloop, hpow, Nat.add_sub_add_right]
    · exact ⟨0, Nat.zero_le _, by rw [divRaise_lowers _ _ _ hover, pow_zero, mul_one]; rfl, by simpa using hm,
        fun _ => by simpa using hover⟩

/-! ### The fractional digits -/

/-- From scale `t`, `k` digits of `A / B` are appended: each where R133 has no stop, up to the first stop or scale 28. -/
def digitsAppended (A B t k : Nat) : Prop :=
  t + k ≤ 28 ∧ (∀ i, i < k → ¬ divisionStops A B i) ∧ (t + k = 28 ∨ divisionStops A B k)

theorem divisionStops_mul_ten (A B i : Nat) : divisionStops (A * 10) B i ↔ divisionStops A B (i + 1) := by
  simp only [divisionStops, pow_succ', mul_assoc]

/-- The first digit of `A / B` is appended to those of `A * 10 / B` (R133). -/
theorem digitsAppended_succ (A B t k : Nat) (hgo : ¬ divisionStops A B 0) (h : digitsAppended (A * 10) B (t + 1) k) :
    digitsAppended A B t (k + 1) := by
  obtain ⟨hscale, hturns, hend⟩ := h
  refine ⟨by omega, ?_, hend.imp (by omega) (divisionStops_mul_ten A B k).1⟩
  rintro (_ | i) hi
  · exact hgo
  · exact fun hstop => hturns i (by omega) ((divisionStops_mul_ten A B i).2 hstop)

/-- Quotient and remainder with one more digit are those of ten times the dividend (R133). -/
theorem quotient_with_digit (A B : Nat) (hB : 0 < B) : 10 * (A / B) + 10 * (A % B) / B = A * 10 / B := by
  have hA : A * 10 = 10 * (A % B) + B * (10 * (A / B)) := by
    rw [← Nat.mul_left_comm, ← mul_add, Nat.mod_add_div, Nat.mul_comm]
  rw [hA, Nat.add_mul_div_left _ _ hB, Nat.add_comm]

/-- One turn of the digit loop on the quotient and remainder of `A / B` (R133). -/
theorem divExpand_succ (A B n t : Nat) (hB : 0 < B) :
    divExpand B (n + 1) (A / B) (A % B) t =
      if t ≥ 28 ∨ divisionStops A B 0 then ⟨A / B, t⟩ else divExpand B n (A * 10 / B) (A * 10 % B) (t + 1) := by
  simp only [divisionStops, pow_zero, mul_one, divExpand]
  by_cases hdone : A % B = 0 ∨ t ≥ 28
  · rw [if_pos hdone, if_pos (by tauto)]
  · rw [if_neg hdone]
    rcases le_or_gt (10 * (A / B)) (2 ^ 96 - 1) with hq | hq
    · rcases le_or_gt (10 * (A % B)) (2 ^ 96 - 1) with hr | hr
      · rw [mulByTen_of_le _ hq, mulByTen_of_le _ hr, if_neg (by simp), quotient_with_digit A B hB, Nat.mul_mod_mod,
          Nat.mul_comm 10 A]
        refine if_congr ?_ rfl rfl
        simp only [Config.maxMant]
        omega
      · rw [mulByTen_of_gt _ hr, if_pos (by simp), if_pos (by tauto)]
    · rw [mulByTen_of_gt _ hq, if_pos (by simp), if_pos (by tauto)]

/-- No digit is appended at scale 28 or at a stop (R133). -/
theorem digitsAppended_zero (A B t : Nat) (ht : t ≤ 28) (h : t ≥ 28 ∨ divisionStops A B 0) : digitsAppended A B t 0 :=
  ⟨ht, fun _ hi => absurd hi (Nat.not_lt_zero _), h.imp (le_antisymm ht) id⟩

/-- The digit loop appends digits of `A / B`, truncating, up to the first stop (R133). -/
theorem divExpand_appends (A B n t : Nat) (hB : 0 < B) (ht : t ≤ 28) (hfuel : 28 ≤ t + n) :
    ∃ k, digitsAppended A B t k ∧ divExpand B n (A / B) (A % B) t = ⟨A * 10 ^ k / B, t + k⟩ := by
  induction n generalizing A t with
  | zero => exact ⟨0, digitsAppended_zero A B t ht (.inl hfuel), by rw [pow_zero, mul_one]; rfl⟩
  | succ n ih =>
    rw [divExpand_succ A B n t hB]
    split
    · next hend => exact ⟨0, digitsAppended_zero A B t ht hend, by rw [pow_zero, mul_one]; rfl⟩
    · next hgo =>
      obtain ⟨hscale, hdigit⟩ := not_or.1 hgo
      obtain ⟨k, happ, hloop⟩ := ih (A * 10) (t + 1) (by omega) (by omega)
      exact ⟨k + 1, digitsAppended_succ A B t k hdigit happ, by rw [hloop, pow_succ', mul_assoc, Nat.add_assoc, Nat.add_comm 1 k]⟩

/-- A quotient of 96 bits keeps to 96 bits with every digit appended (R133, R136). -/
theorem quotient_le_of_digitsAppended (A B t k : Nat) (hB : 0 < B) (hA : A ≤ 2 ^ 96 - 1) (h : digitsAppended A B t k) :
    A * 10 ^ k / B ≤ 2 ^ 96 - 1 := by
  cases k with
  | zero => exact (Nat.div_le_self _ _).trans (by simpa using hA)
  | succ k =>
    obtain ⟨-, -, -, hfits⟩ : _ ∧ _ ∧ _ ∧ _ := by simpa only [divisionStops, not_or] using h.2.1 k k.lt_succ_self
    rw [quotient_with_digit _ _ hB] at hfits
    rw [pow_succ, ← mul_assoc]
    exact not_lt.1 hfits

/-! ### The quotient -/

theorem semDdiv_of_zero (x y : Dec) (hy : y.m = 0) : semDdiv x y = (zeroDec, .divisionByZero) := by simp [semDdiv, isZero, hy]

/-- A divisor lowered to 0 counts as a zero divisor (R133). -/
theorem semDdiv_of_lowered_to_zero (x y : Dec) (A : Nat) (hloop : divRaise (y.s - x.s) x.m y.m = (A, 0)) :
    semDdiv x y = (zeroDec, .divisionByZero) := by
  simp [semDdiv, hloop]

/-- With a divisor left after the first loop, DDIV gives the quotient with its digits appended (R133). -/
theorem semDdiv_appends (x y : Dec) (A B : Nat) (hs : x.s ≤ 28) (hy : y.m ≠ 0) (hloop : divRaise (y.s - x.s) x.m y.m = (A, B))
    (hB : B ≠ 0) :
    ∃ k, digitsAppended A B (x.s - y.s) k ∧ semDdiv x y = (⟨A * 10 ^ k / B, x.s - y.s + k, x.neg ^^ y.neg⟩, .ok) := by
  obtain ⟨k, happ, hdigits⟩ := divExpand_appends A B 28 (x.s - y.s) (Nat.pos_of_ne_zero hB) (by omega) (by omega)
  have hnz : isZero y = false := by simpa [isZero] using hy
  refine ⟨k, happ, ?_⟩
  simp only [semDdiv, hnz, hloop, hB, hdigits, Bool.false_eq_true, if_false]

theorem operand_scale_le (s : State) (n : Fin 8) (h : operandOk s n) : (operand s n).s ≤ 28 :=
  scaleOf_le _ ((operandOk_iff s n).1 h)

/-- Settles O25: `j` counts the raises of the first loop, `k` the digits appended. -/
theorem ddivFollowsLongDivision : Obligations.DdivFollowsLongDivision := by
  rintro d a b s x y ha hb rfl rfl
  rw [exec, execDdiv, runDDD_eq_afterD _ d a b s ha hb]
  refine ⟨wordOf_regFields b a d 0x04#8, fun hy => by rw [semDdiv_of_zero _ _ hy]; rfl, fun hy => ?_⟩
  obtain ⟨j, hj, hloop, hfits, hmax⟩ := divRaise_raises_then_lowers ((operand s b).s - (operand s a).s) _ (operand s b).m
    (operand_mant_le s a)
  refine ⟨j, _, _, hj, rfl, hfits, rfl, hmax, fun hB => ?_, fun hB => ?_⟩
  · rw [hB] at hloop
    rw [semDdiv_of_lowered_to_zero _ _ _ hloop]
    rfl
  · obtain ⟨k, ⟨hscale, hturns, hend⟩, hsem⟩ := semDdiv_appends _ _ _ _ (operand_scale_le s a ha) hy hloop hB
    exact ⟨k, hscale, hturns, hend, by rw [hsem]⟩

/-- The only codes of DDIV's own computation (R133, R136). -/
theorem semDdiv_ec (x y : Dec) : (semDdiv x y).2 = .ok ∨ (semDdiv x y).2 = .divisionByZero := by
  simp only [semDdiv]
  split_ifs
  · exact .inr rfl
  · exact .inr rfl
  · exact .inl rfl

/-- DDIV's mantissa has 96 bits where the dividend's has (R136). -/
theorem semDdiv_mant_le (x y : Dec) (hm : x.m ≤ 2 ^ 96 - 1) (hs : x.s ≤ 28) : (semDdiv x y).1.m ≤ 2 ^ 96 - 1 := by
  by_cases hy : y.m = 0
  · rw [semDdiv_of_zero x y hy]
    exact Nat.zero_le _
  · obtain ⟨j, -, hloop, hfits, -⟩ := divRaise_raises_then_lowers (y.s - x.s) x.m y.m hm
    by_cases hB : roundedBy (y.s - x.s - j) y.m = 0
    · rw [semDdiv_of_lowered_to_zero x y _ (hB ▸ hloop)]
      exact Nat.zero_le _
    · obtain ⟨k, happ, hsem⟩ := semDdiv_appends x y _ _ hs hy hloop hB
      rw [hsem]
      exact quotient_le_of_digitsAppended _ _ _ k (Nat.pos_of_ne_zero hB) hfits happ

theorem afterD_ec (d : Fin 8) (v : Dec) (ec : ErrorCode) (s : State) : (afterD d v ec s).status.ec = ec := rfl

/-- The code a DDIV command leaves is one of its own computation, or InvalidArgument (R71, R133). -/
theorem ddiv_status_ec (rd ra rb : RegField) (s t : State) (h : exec (.ddiv rd ra rb) s = .next t) :
    t.status.ec = .ok ∨ t.status.ec = .divisionByZero ∨ t.status.ec = .invalidArgument := by
  rw [exec, execDdiv] at h
  rcases runDDD_cases semDdiv rd ra rb s with hrun | ⟨d, a, b, -, -, -, -, -, hrun⟩
  · rw [hrun, Host.Outcome.next.injEq] at h
    rw [← h]
    exact .inr (.inr rfl)
  · rw [hrun, Host.Outcome.next.injEq] at h
    rw [← h, completeWith_status, finishStatus_ec]
    exact (semDdiv_ec _ _).imp_right .inl

/-- Settles O27: the codes are those of `ddiv_status_ec` and `semDdiv_ec`, the bound is `semDdiv_mant_le`. -/
theorem ddivNeverOverflows : Obligations.DdivNeverOverflows := by
  refine ⟨fun rd ra rb s t h => ?_, fun d a b s t ha hb h => ?_, fun d a b s ha hb => ⟨?_, ?_⟩⟩
  · rcases ddiv_status_ec rd ra rb s t h with hec | hec | hec <;> simp [hec]
  · rw [exec, execDdiv, runDDD_eq_afterD _ d a b s ha hb, Host.Outcome.next.injEq] at h
    rw [← h, afterD_ec]
    exact semDdiv_ec _ _
  · rw [exec, execDdiv, runDDD_eq_afterD _ d a b s ha hb]
  · exact semDdiv_mant_le _ _ (operand_mant_le s a) (operand_scale_le s a ha)

/-! ### The truncated quotient -/

/-- The magnitude of a record's value (R2). -/
theorem abs_decValue (v : Dec) : |decValue v| = (v.m : ℚ) / 10 ^ v.s := by
  cases hn : v.neg <;> simp [decValue, hn, abs_div]

/-- Ten to the scale of the result times the exact quotient, where the divisor has no larger scale (R2). -/
theorem abs_quotient_scaled (x y : Dec) (k : Nat) (hs : y.s ≤ x.s) :
    |decValue x / decValue y| = ((x.m * 10 ^ k : Nat) : ℚ) / y.m / 10 ^ (x.s - y.s + k) := by
  obtain ⟨t, ht⟩ := Nat.exists_eq_add_of_le hs
  rw [abs_div, abs_decValue, abs_decValue, ht, Nat.add_sub_cancel_left, pow_add, pow_add]
  push_cast
  field_simp

/-- A quotient truncated at its last digit lies less than one unit of it below the exact one (R133). -/
theorem truncatedQuotient_bounds (x y : Dec) (k : Nat) (n : Bool) (hs : y.s ≤ x.s) :
    |decValue ⟨x.m * 10 ^ k / y.m, x.s - y.s + k, n⟩| ≤ |decValue x / decValue y| ∧
      |decValue x / decValue y| < |decValue ⟨x.m * 10 ^ k / y.m, x.s - y.s + k, n⟩| + 1 / 10 ^ (x.s - y.s + k) := by
  have hupper := Nat.lt_floor_add_one (((x.m * 10 ^ k : Nat) : ℚ) / y.m)
  rw [Nat.floor_div_eq_div] at hupper
  rw [abs_quotient_scaled x y k hs, abs_decValue, ← add_div]
  exact ⟨by gcongr; exact Nat.cast_div_le, by gcongr⟩

/-- Settles O26: the first loop makes no turn. -/
theorem ddivTruncatesQuotient : Obligations.DdivTruncatesQuotient := by
  rintro d a b s x y ha hb rfl rfl hy hs
  have hloop : divRaise ((operand s b).s - (operand s a).s) (operand s a).m (operand s b).m = ((operand s a).m, (operand s b).m) := by
    rw [Nat.sub_eq_zero_of_le hs]
    rfl
  obtain ⟨k, happ, hsem⟩ := semDdiv_appends _ _ _ _ (operand_scale_le s a ha) hy hloop hy
  rw [exec, execDdiv, runDDD_eq_afterD _ d a b s ha hb, hsem]
  exact ⟨_, rfl, quotient_le_of_digitsAppended _ _ _ k (Nat.pos_of_ne_zero hy) (operand_mant_le s a) happ, Nat.le_add_right _ _,
    happ.1, rfl, truncatedQuotient_bounds _ _ k _ hs⟩

end Sys2Proof.Machine
end

section
/-! SUPPORT. The word of a comparison (R68), its order and its equality by the rule, and the pairs that the order sets level (R150 to
R159). -/

namespace Sys2Proof.Machine

/-! ### The order by the rule -/

theorem isZero_and_isZero_iff (x y : Dec) : (isZero x && isZero y) = true ↔ x.m = 0 ∧ y.m = 0 := by simp [isZero]

/-- The sign R150 orders by, read off the mantissa and the sign bit. -/
theorem orderSign_iff_orderNegative (v : Dec) : orderSign v = true ↔ orderNegative v := by
  by_cases hz : v.m = 0 <;> simp [orderSign, isZero, hz]

/-- The last line of R150 turns the sign of `compareMagnitude` into the order of the mantissas. -/
theorem orderingOfSign_compareMagnitude (m n : Nat) :
    (if compareMagnitude m n < 0 then Ordering.lt else if compareMagnitude m n = 0 then .eq else .gt) = compare m n := by
  unfold compareMagnitude
  rcases lt_trichotomy m n with h | rfl | h
  · simp [h, Nat.compare_eq_lt.2 h]
  · simp
  · simp [h.not_gt, h.ne', Nat.compare_eq_gt.2 h]

/-- Two zeros are level, whatever their signs and scales (R150, R158). -/
theorem ord_of_zeros (x y : Dec) (hx : x.m = 0) (hy : y.m = 0) : ord x y = .eq := by
  rw [ord, if_pos ((isZero_and_isZero_iff x y).2 ⟨hx, hy⟩)]

/-- Of two numbers that are not both zero the signs decide first, and then the mantissas, exchanged for two negatives (R150). -/
theorem ord_of_not_zeros (x y : Dec) (hz : ¬ (x.m = 0 ∧ y.m = 0)) :
    ord x y =
      if orderNegative x then
        if orderNegative y then compare (orderMantissas x y).2 (orderMantissas x y).1 else .lt
      else if orderNegative y then .gt else compare (orderMantissas x y).1 (orderMantissas x y).2 := by
  rw [ord, if_neg ((isZero_and_isZero_iff x y).not.2 hz)]
  simp only [← orderSign_iff_orderNegative, ← orderingOfSign_compareMagnitude]
  cases orderSign x <;> cases orderSign y
  case true.true => rw [compareMagnitude_swap (orderMantissas x y).1]; rfl
  all_goals rfl

/-- `ord` answers LT exactly on the pairs that the rule sets below (R150). -/
theorem ord_eq_lt_iff (x y : Dec) : ord x y = .lt ↔ belowByRule x y := by
  by_cases hz : x.m = 0 ∧ y.m = 0
  · exact iff_of_false (by rw [ord_of_zeros x y hz.1 hz.2]; decide) fun hbelow => hbelow.1 hz
  · rw [ord_of_not_zeros x y hz]
    split_ifs with hx hy hy <;> simp only [Nat.compare_eq_lt, belowByRule] <;> tauto

/-- `ord` answers EQ exactly on the pairs that the rule sets level (R150). -/
theorem ord_eq_eq_iff (x y : Dec) : ord x y = .eq ↔ levelByRule x y := by
  by_cases hz : x.m = 0 ∧ y.m = 0
  · exact iff_of_true (ord_of_zeros x y hz.1 hz.2) (.inl hz)
  · rw [ord_of_not_zeros x y hz]
    split_ifs with hx hy hy <;> simp only [Nat.compare_eq_eq, levelByRule] <;> tauto

/-! ### The six relations -/

theorem relDlt_eq_decide (x y : Dec) : relDlt x y = decide (belowByRule x y) := by
  rw [Bool.eq_iff_iff, decide_eq_true_eq, relDlt, beq_iff_eq, ord_eq_lt_iff]

theorem relDle_eq_decide (x y : Dec) : relDle x y = decide (belowByRule x y ∨ levelByRule x y) := by
  rw [Bool.eq_iff_iff, decide_eq_true_eq, relDle, Bool.or_eq_true, beq_iff_eq, beq_iff_eq, ord_eq_lt_iff, ord_eq_eq_iff]

/-- DGT is the complement of DLE: the order has three values (R153). -/
theorem relDgt_eq_not_relDle (x y : Dec) : relDgt x y = !relDle x y := by
  rw [relDgt, relDle]
  cases ord x y <;> rfl

/-- DGE is the complement of DLT (R154). -/
theorem relDge_eq_not_relDlt (x y : Dec) : relDge x y = !relDlt x y := by
  rw [relDge, relDlt]
  cases ord x y <;> rfl

/-- `eqStrict` as the rule states it (R155). -/
theorem eqStrict_eq_decide (x y : Dec) :
    eqStrict x y =
      decide (x.neg = y.neg ∧ (align ⟨x.m, x.s⟩ ⟨y.m, y.s⟩).1.m = (align ⟨x.m, x.s⟩ ⟨y.m, y.s⟩).2.m) := by
  rw [eqStrict, Bool.decide_and]
  rfl

/-! ### The six commands -/

/-- The word of a comparison has RD = 0 (R62, R68). -/
theorem wordOf_cmp (a b : Fin 8) (o : BitVec 8) : wordOf (regField b) (regField a) 0#4 o = commandWord b a 0 o.toNat :=
  wordOf_regFields b a 0 o

/-- A comparison of well-formed operands answers what its relation gives on them (R36, R71). -/
theorem runCMP_of_rel (rel : Dec → Dec → Bool) (a b : Fin 8) (s : State) (c : Bool) (ha : operandOk s a) (hb : operandOk s b)
    (h : rel (operand s a) (operand s b) = c) : runCMP rel (regField a) (regField b) s = .next (afterCF c s) :=
  h ▸ runCMP_eq_afterCF rel a b s ha hb

/-- Settles O29: each relation read off the order, DGT and DGE as complements. -/
theorem relationalCommandsFollowOrd : Obligations.RelationalCommandsFollowOrd := by
  rintro a b s x y ha hb rfl rfl
  have hle := relDle_eq_decide (operand s a) (operand s b)
  have hlt := relDlt_eq_decide (operand s a) (operand s b)
  exact ⟨⟨wordOf_cmp a b 0x10#8, runCMP_of_rel relDlt a b s _ ha hb hlt⟩,
    ⟨wordOf_cmp a b 0x11#8, runCMP_of_rel relDle a b s _ ha hb hle⟩,
    ⟨wordOf_cmp a b 0x12#8, runCMP_of_rel relDgt a b s _ ha hb (by rw [relDgt_eq_not_relDle, hle, decide_not])⟩,
    ⟨wordOf_cmp a b 0x13#8, runCMP_of_rel relDge a b s _ ha hb (by rw [relDge_eq_not_relDlt, hlt, decide_not])⟩,
    ord_eq_lt_iff _ _, ord_eq_eq_iff _ _⟩

/-- Settles O30: DEQ is `eqStrict` and DNE its complement. -/
theorem equalityCommandsFollowRule : Obligations.EqualityCommandsFollowRule := by
  rintro a b s x y ha hb rfl rfl
  have heq := eqStrict_eq_decide (operand s a) (operand s b)
  exact ⟨⟨wordOf_cmp a b 0x14#8, runCMP_of_rel relDeq a b s _ ha hb heq⟩,
    ⟨wordOf_cmp a b 0x15#8, runCMP_of_rel relDne a b s _ ha hb (congrArg (!·) heq)⟩⟩

/-! ### Pairs that the order sets level -/

/-- The relational commands on a pair that the order sets level. -/
theorem relational_of_level (a b : Fin 8) (s : State) (ha : operandOk s a) (hb : operandOk s b)
    (hord : ord (operand s a) (operand s b) = .eq) :
    exec (.dlt (regField a) (regField b)) s = .next (afterCF false s) ∧
    exec (.dle (regField a) (regField b)) s = .next (afterCF true s) ∧
    exec (.dgt (regField a) (regField b)) s = .next (afterCF false s) ∧
    exec (.dge (regField a) (regField b)) s = .next (afterCF true s) :=
  ⟨runCMP_of_rel relDlt a b s _ ha hb (by rw [relDlt, hord]; rfl), runCMP_of_rel relDle a b s _ ha hb (by rw [relDle, hord]; rfl),
    runCMP_of_rel relDgt a b s _ ha hb (by rw [relDgt, hord]; rfl), runCMP_of_rel relDge a b s _ ha hb (by rw [relDge, hord]; rfl)⟩

/-- Settles O32: two zeros are level for the order, and `eqStrict` fails on the sign bits. -/
theorem zeroSignAsymmetry : Obligations.ZeroSignAsymmetry := by
  intro a b s ha hb hza hzb hsign
  obtain ⟨hlt, hle, hgt, hge⟩ := relational_of_level a b s ha hb (ord_of_zeros _ _ hza hzb)
  have heq : eqStrict (operand s a) (operand s b) = false := by
    rw [eqStrict_eq_decide, decide_eq_false_iff_not]
    exact fun h => hsign h.1
  exact ⟨hle, hge, hlt, hgt, runCMP_of_rel relDeq a b s _ ha hb heq, runCMP_of_rel relDne a b s _ ha hb (congrArg (!·) heq)⟩

/-- The operand read from a register that holds a packed decimal is that decimal, and it is well formed (R21 to R23). -/
theorem operand_of_pack (n : Fin 8) (s : State) (v : Dec) (hm : v.m < 2 ^ 96) (hs : v.s ≤ 28)
    (h : readD (sources s) n = pack v) : operandOk s n ∧ operand s n = v := by
  rw [operandOk_iff, operand, h]
  exact ⟨wellFormedD_pack v hs, unpack_pack v hm (by omega)⟩

/-- R159's pair: raising the first overflows, so the second is lowered, and its dropped 5 rounds the odd quotient up. -/
theorem align_distinct_pair :
    align ⟨7922816251426433759354395034, 0⟩ ⟨2 ^ 96 - 1, 1⟩ =
      (⟨7922816251426433759354395034, 0⟩, ⟨7922816251426433759354395034, 0⟩) := by decide

/-- Neither of R159's two numbers has a zero digit to strip. -/
theorem normalize_distinct_pair :
    normalize 7922816251426433759354395034 0 = ⟨7922816251426433759354395034, 0⟩ ∧
      normalize (2 ^ 96 - 1) 1 = ⟨2 ^ 96 - 1, 1⟩ := by decide

/-- Settles O33: alignment gives R159's two numbers one mantissa. -/
theorem alignmentCanEquateDistinct : Obligations.AlignmentCanEquateDistinct := by
  intro a b s hra hrb
  obtain ⟨ha, hva⟩ := operand_of_pack a s _ (by norm_num) (by norm_num) hra
  obtain ⟨hb, hvb⟩ := operand_of_pack b s _ (by norm_num) (by norm_num) hrb
  have hord : ord (operand s a) (operand s b) = .eq := by
    rw [ord_eq_eq_iff, hva, hvb]
    refine .inr ⟨by decide, ?_⟩
    rw [orderMantissas, normalize_distinct_pair.1, normalize_distinct_pair.2, align_distinct_pair]
  have heq : eqStrict (operand s a) (operand s b) = true := by
    rw [hva, hvb, eqStrict, align_distinct_pair]
    rfl
  obtain ⟨hlt, hle, hgt, hge⟩ := relational_of_level a b s ha hb hord
  exact ⟨hlt, hgt, hle, hge, runCMP_of_rel relDeq a b s _ ha hb heq, runCMP_of_rel relDne a b s _ ha hb (congrArg (!·) heq)⟩

end Sys2Proof.Machine
end

section
/-! SUPPORT. DTRUNC, DROUND and DFLOOR on every well-formed operand, and one DD command on the result of another (R170 to R175). -/

namespace Sys2Proof.Machine

/-! ### The integer part -/

/-- DTRUNC divides the mantissa by the power of ten of the scale (R170, R171). -/
theorem semDtrunc_eq (v : Dec) : semDtrunc v = (⟨v.m / 10 ^ v.s, 0, v.neg⟩, .ok) := by rw [semDtrunc, truncMag_eq_div]

/-- At a scale above 0 a digit is dropped, so the integer part plus one still has 96 bits (R172, R173). -/
theorem truncMag_add_one_le (m s : Nat) (hm : m ≤ 2 ^ 96 - 1) (hs : 0 < s) : truncMag m s + 1 ≤ 2 ^ 96 - 1 := by
  have hdrop : m / 10 ^ s ≤ m / 10 := Nat.div_le_div_left (Nat.le_self_pow hs.ne' 10) (by norm_num)
  rw [truncMag_eq_div]
  omega

theorem truncMag_le (m s : Nat) : truncMag m s ≤ m := truncMag_eq_div m s ▸ Nat.div_le_self _ _

/-- Settles O35: `truncMag` is the division by `10 ^ s`. -/
theorem dtruncDropsFraction : Obligations.DtruncDropsFraction := by
  rintro d a s x hok rfl
  refine ⟨wordOf_regFields 0 a d 0x20#8, ?_⟩
  rw [exec, execDtrunc, runDD_eq_afterD semDtrunc d a s hok, semDtrunc_eq]

/-! ### Rounding half away from zero -/

theorem firstDigit_ge_five_iff (v : Dec) : firstDigit v ≥ 5 ↔ v.s > 0 ∧ v.m / 10 ^ (v.s - 1) % 10 ≥ 5 := by
  rw [firstDigit, truncMag_eq_div, divByTen]
  split <;> simp [*]

/-- DROUND adds one to the integer part by the first fractional digit (R172). -/
theorem semDround_mant (v : Dec) :
    (semDround v).1.m = v.m / 10 ^ v.s + (if v.s > 0 ∧ v.m / 10 ^ (v.s - 1) % 10 ≥ 5 then 1 else 0) := by
  simp only [semDround, firstDigit_ge_five_iff, truncMag_eq_div]
  split <;> rfl

/-- One more than the integer part exactly when the first fractional digit is at least 5, is half-up rounding: with `q` the number cut
after that digit, both are `(q + 5) / 10` (R172). -/
theorem halfUp_eq_firstDigit (m k : Nat) :
    (2 * m + 10 ^ (k + 1)) / (2 * 10 ^ (k + 1)) = m / 10 ^ (k + 1) + (if m / 10 ^ k % 10 ≥ 5 then 1 else 0) := by
  have hcut : (2 * m + 10 ^ (k + 1)) / (2 * 10 ^ (k + 1)) = (m / 10 ^ k + 5) / 10 := calc
    _ = 2 * (m + 5 * 10 ^ k) / (2 * (10 ^ k * 10)) := by ring_nf
    _ = (m + 5 * 10 ^ k) / 10 ^ k / 10 := by rw [Nat.mul_div_mul_left _ _ two_pos, Nat.div_div_eq_div_mul]
    _ = (m / 10 ^ k + 5) / 10 := by rw [Nat.add_mul_div_right _ _ (by positivity)]
  rw [hcut, pow_succ, ← Nat.div_div_eq_div_mul]
  split <;> omega

/-- DROUND rounds the magnitude half up (R172). -/
theorem semDround_mant_eq_halfUp (v : Dec) : (semDround v).1.m = (2 * v.m + 10 ^ v.s) / (2 * 10 ^ v.s) := by
  rw [semDround_mant]
  cases v.s with
  | zero =>
    rw [if_neg (fun h => h.1.false), pow_zero]
    omega
  | succ k => simp [halfUp_eq_firstDigit]

theorem semDround_mant_le (v : Dec) (hm : v.m ≤ 2 ^ 96 - 1) : (semDround v).1.m ≤ 2 ^ 96 - 1 := by
  rw [semDround]
  split
  next h => exact truncMag_add_one_le v.m v.s hm ((firstDigit_ge_five_iff v).1 h).1
  next => exact (truncMag_le v.m v.s).trans hm

/-- Settles O36: the first fractional digit decides, and that is half-up rounding of the magnitude. -/
theorem droundRoundsHalfAway : Obligations.DroundRoundsHalfAway := by
  rintro d a s x hok rfl
  exact ⟨wordOf_regFields 0 a d 0x21#8, (semDround (operand s a)).1.m, runDD_eq_afterD semDround d a s hok,
    semDround_mant _, semDround_mant_eq_halfUp _, semDround_mant_le _ (operand_mant_le s a)⟩

/-! ### Rounding toward negative infinity -/

/-- The mantissa with its sign. -/
def signedMant (v : Dec) : ℤ := if v.neg then -v.m else v.m

/-- A record denotes its signed mantissa over the power of ten of its scale (R2). -/
theorem decValue_eq_signedMant_div (v : Dec) : decValue v = (signedMant v : ℚ) / (10 ^ v.s : ℕ) := by
  rw [decValue, signedMant]
  split <;> simp

/-- The floor of a record's value is integer division of its signed mantissa, which rounds down (R173). -/
theorem floor_decValue (v : Dec) : ⌊decValue v⌋ = signedMant v / (10 ^ v.s : ℕ) := by
  rw [decValue_eq_signedMant_div, Rat.floor_intCast_div_natCast]

theorem semDfloor_mant_le (v : Dec) (hm : v.m ≤ 2 ^ 96 - 1) : (semDfloor v).1.m ≤ 2 ^ 96 - 1 := by
  rw [semDfloor]
  split
  next hfrac =>
    have hs : v.s ≠ 0 := fun h0 => hfrac.2 (by rw [h0, pow_zero, Nat.mod_one])
    exact truncMag_add_one_le v.m v.s hm (Nat.pos_of_ne_zero hs)
  next => exact (truncMag_le v.m v.s).trans hm

/-- A negative quotient rounds down to one more in magnitude exactly when there is a remainder (R173). -/
theorem neg_natCast_ediv (m n : ℕ) (hn : 0 < n) : -(m : ℤ) / n = -((if m % n ≠ 0 then m / n + 1 else m / n : ℕ) : ℤ) := by
  have hdvd : (n : ℤ) ∣ m ↔ m % n = 0 := Int.natCast_dvd_natCast.trans Nat.dvd_iff_mod_eq_zero
  rw [Int.neg_ediv, Int.sign_eq_one_of_pos (Int.natCast_pos.2 hn)]
  by_cases hrem : m % n = 0
  · rw [if_pos (hdvd.2 hrem), if_neg (not_not_intro hrem), sub_zero, Int.natCast_ediv]
  · rw [if_neg (mt hdvd.1 hrem), if_pos hrem]
    push_cast
    ring

/-- DFLOOR's signed mantissa is that division (R173). -/
theorem signedMant_semDfloor (v : Dec) : signedMant (semDfloor v).1 = signedMant v / (10 ^ v.s : ℕ) := by
  simp only [semDfloor, signedMant, truncMag_eq_div]
  cases v.neg with
  | false => simp
  | true => simpa using (neg_natCast_ediv v.m (10 ^ v.s) (by positivity)).symm

theorem decValue_semDfloor (v : Dec) : decValue (semDfloor v).1 = (⌊decValue v⌋ : ℚ) := by
  have hscale : (semDfloor v).1.s = 0 := rfl
  rw [decValue_eq_signedMant_div, hscale, signedMant_semDfloor, floor_decValue, pow_zero, Nat.cast_one, div_one]

/-- Settles O37: integer division of the signed mantissa is the floor of the value. -/
theorem dfloorRoundsDown : Obligations.DfloorRoundsDown := by
  rintro d a s x hok rfl
  exact ⟨wordOf_regFields 0 a d 0x22#8, (semDfloor (operand s a)).1.m, runDD_eq_afterD semDfloor d a s hok,
    semDfloor_mant_le _ (operand_mant_le s a), decValue_semDfloor _⟩

/-! ### One command after another -/

/-- A DD command on the register another has just written: it reads that result, whatever the registers are (R21 to R23, R71, R72). -/
theorem runDD_then_runDD (sem sem' : Dec → Dec × ErrorCode) (d a e : Fin 8) (s : State) (ha : operandOk s a)
    (hm : (sem (operand s a)).1.m ≤ 2 ^ 96 - 1) (hs : (sem (operand s a)).1.s ≤ 28) :
    ∃ t u, runDD sem (regField d) (regField a) s = .next t ∧ runDD sem' (regField e) (regField d) t = .next u ∧
      readD t.regs d = pack (sem (operand s a)).1 ∧ readD u.regs e = pack (sem' (sem (operand s a)).1).1 := by
  have hread := readD_afterD_same d (sem (operand s a)).1 (sem (operand s a)).2 s
  obtain ⟨hd, hv⟩ := operand_of_pack d (afterD d (sem (operand s a)).1 (sem (operand s a)).2 s) _ (by omega) hs hread
  refine ⟨_, _, runDD_eq_afterD sem d a s ha, runDD_eq_afterD sem' e d _ hd, hread, ?_⟩
  rw [readD_afterD_same, hv]

theorem semDneg_semDneg (v : Dec) : (semDneg (semDneg v).1).1 = v := by simp [semDneg]

/-- A decimal of scale 0 has no fraction to drop (R171). -/
theorem semDtrunc_of_scale_zero (v : Dec) (h : v.s = 0) : (semDtrunc v).1 = v := by
  obtain ⟨m, s, neg⟩ := v
  subst h
  rfl

/-- Settles O39: the second command undoes, or keeps, the record the first one left. -/
theorem shapingProperties : Obligations.ShapingProperties := by
  intro d a e s hok
  have hm := operand_mant_le s a
  obtain ⟨t, u, ht, hu, -, hread⟩ := runDD_then_runDD semDneg semDneg d a e s hok hm (operand_scale_le s a hok)
  obtain ⟨t', u', ht', hu', hread', hkept⟩ :=
    runDD_then_runDD semDround semDtrunc d a e s hok (semDround_mant_le _ hm) (Nat.zero_le 28)
  refine ⟨⟨t, u, ht, hu, ?_⟩, t', u', ht', hu', ?_⟩
  · rw [hread, semDneg_semDneg, pack_unpack _ ((operandOk_iff s a).1 hok)]
  · rw [hkept, hread', semDtrunc_of_scale_zero _ rfl]

end Sys2Proof.Machine
end

section
/-! SUPPORT. I2D and D2I on every operand, and one after the other (R190, R191). -/

namespace Sys2Proof.Machine

/-- A DS command, as its next state (R71, R72). -/
theorem runDS_eq_afterD (sem : Word → Dec × ErrorCode) (d a : Fin 8) (s : State) :
    runDS sem (regField d) (regField a) s = .next (afterD d (sem (readS (sources s) a)).1 (sem (readS (sources s) a)).2 s) := by
  rw [runDS_ok, completeWith_dreg_eq_afterD]

theorem readS_afterS_same (d : Fin 8) (v : Word) (ec : ErrorCode) (s : State) : readS (afterS d v ec s).regs d = v := by
  rw [← completeWith_sreg_eq_afterS, completeWith_regs, writeRegs, readS_writeS_same]

/-! ### I2D -/

/-- I2D's mantissa with its sign is the integer (R190). -/
theorem signedMant_semI2d (x : Word) : signedMant (semI2d x).1 = x.toInt := by
  simp only [signedMant, semI2d, decide_eq_true_eq]
  split <;> omega

/-- The magnitude of a 32-bit integer, reached by the most negative one alone (R190). -/
theorem semI2d_mant_le (x : Word) : (semI2d x).1.m ≤ 2 ^ 31 := by
  have hlow := x.le_toInt
  have hhigh := x.toInt_lt
  simp only [semI2d]
  omega

/-- Settles O40: a record of scale 0 denotes its signed mantissa, which for I2D is the integer. -/
theorem i2dDenotesInteger : Obligations.I2dDenotesInteger := by
  rintro d a s x rfl
  refine ⟨wordOf_regFields 0 a d 0x30#8, _, runDS_eq_afterD semI2d d a s, rfl, semI2d_mant_le _, ?_, decide_eq_true_iff⟩
  have hscale : (semI2d (readS (sources s) a)).1.s = 0 := rfl
  rw [decValue_eq_signedMant_div, signedMant_semI2d, hscale, pow_zero, Nat.cast_one, div_one]

/-! ### D2I -/

/-- D2I's two range tests on the integer part, and its result in range: the first test is `> 2^31` alone, and after it
`> 2^31 - 1` leaves only `2^31` (R191). -/
theorem semD2i_eq (v : Dec) :
    semD2i v =
      if v.m / 10 ^ v.s > 2 ^ 31 then (0#32, .invalidArgument)
      else if v.m / 10 ^ v.s = 2 ^ 31 ∧ v.neg = false then (0#32, .overflowLarge)
      else (BitVec.ofInt 32 (if v.neg then -((v.m / 10 ^ v.s : Nat) : Int) else ((v.m / 10 ^ v.s : Nat) : Int)), .ok) := by
  rw [semD2i, truncMag_eq_div]
  generalize v.m / 10 ^ v.s = t
  by_cases hbig : t > 2 ^ 31
  · rw [if_pos (.inr hbig), if_pos hbig]
  · have htop : t > 2 ^ 31 - 1 ↔ t = 2 ^ 31 := by omega
    rw [if_neg (by omega), if_neg hbig]
    simp only [htop, and_comm]

/-- Settles O41: the completion with `semD2i`, case by case. -/
theorem d2iTruncatesInRange : Obligations.D2iTruncatesInRange := by
  rintro d a s x hok rfl
  refine ⟨wordOf_regFields 0 a d 0x32#8, ?_⟩
  rw [exec, execD2i, runSD_eq_afterS semD2i d a s hok, semD2i_eq]
  split_ifs <;> rfl

/-! ### D2I after I2D -/

theorem natAbs_signedMant (v : Dec) : (signedMant v).natAbs = v.m := by
  rw [signedMant]
  split <;> omega

/-- At scale 0 and in range, D2I gives the pattern of the signed mantissa (R191). -/
theorem semD2i_of_integer (v : Dec) (hs : v.s = 0) (hlow : -2 ^ 31 ≤ signedMant v) (hhigh : signedMant v < 2 ^ 31) :
    semD2i v = (BitVec.ofInt 32 (signedMant v), .ok) := by
  have habs := natAbs_signedMant v
  rw [semD2i_eq, hs, pow_zero, Nat.div_one, if_neg (by omega), if_neg ?_]
  · rfl
  · rintro ⟨hm, hn⟩
    rw [signedMant, hn, if_neg Bool.false_ne_true] at hhigh
    omega

theorem semD2i_semI2d (x : Word) : semD2i (semI2d x).1 = (x, .ok) := by
  have hlow := x.le_toInt
  have hhigh := x.toInt_lt
  rw [semD2i_of_integer _ rfl (by rw [signedMant_semI2d]; omega) (by rw [signedMant_semI2d]; omega), signedMant_semI2d,
    BitVec.ofInt_toInt]

/-- Settles O42: D2I reads the record that I2D packed. -/
theorem d2iInvertsI2d : Obligations.D2iInvertsI2d := by
  intro d a n s
  generalize hx : readS (sources s) a = x
  have hm := semI2d_mant_le x
  obtain ⟨hok, hv⟩ := operand_of_pack d (afterD d (semI2d x).1 .ok s) _ (by omega) (Nat.zero_le 28) (readD_afterD_same d _ _ s)
  refine ⟨_, _, hx ▸ runDS_eq_afterD semI2d d a s, runSD_eq_afterS semD2i n d _ hok, ?_, ?_⟩
  · rw [readS_afterS_same, hv, semD2i_semI2d]
  · rw [hv, semD2i_semI2d]
    rfl

end Sys2Proof.Machine
end

section
/-! SUPPORT. D2F's small results, read off the chain of roundings that O45 states (R192, R196). -/

namespace Sys2Proof.Machine

/-- The only patterns that denote zero are the two zeros (R192). -/
theorem absVal32Q_eq_zero_iff (w : Word) : absVal32Q w = 0 ↔ w.toNat % 2 ^ 31 = 0 := by
  have hpow (e : ℤ) : (2 : ℚ) ^ e ≠ 0 := by positivity
  rw [absVal32Q]
  split <;> rw [mul_eq_zero_iff_right (hpow _), Nat.cast_eq_zero] <;> omega

/-- The two patterns without magnitude, told apart by their sign bit (R192). -/
theorem eq_signedZero (w : Word) (n : Bool) (hsign : w.getLsbD 31 = n) (h : w.toNat % 2 ^ 31 = 0) :
    w = if n then 0x80000000#32 else 0#32 := by
  have hlt := w.isLt
  rw [BitVec.getLsbD, Nat.testBit_eq_decide_div_mod_eq] at hsign
  apply BitVec.eq_of_toNat_eq
  cases n <;> simp at hsign ⊢ <;> omega

/-- A power of two from the least unit up is rounded to itself (R11). -/
theorem roundsTo_two_pow (prec k : Nat) (emin : ℤ) (y : ℚ) (he : emin ≤ k) (h : roundsTo prec emin (2 ^ k) y) : y = 2 ^ k := by
  obtain ⟨sig, e, rfl, -, -, hbin, hsig⟩ := h
  have hshift : (2 : ℚ) ^ k * 2 ^ (-e) = 2 ^ ((k : ℤ) - e) := by
    rw [← zpow_natCast, ← zpow_add₀ (by norm_num), ← sub_eq_add_neg]
  rw [hshift] at hbin hsig
  rcases le_or_gt e k with hle | hgt
  · obtain ⟨j, hj⟩ : ∃ j : ℕ, (k : ℤ) - e = j := ⟨(k - e).toNat, by omega⟩
    have hN : (2 : ℚ) ^ ((k : ℤ) - e) = ((2 ^ j : ℕ) : ℚ) := by rw [hj]; simp
    rw [hN] at hsig
    rw [eq_of_nearestEven_natCast _ _ hsig, ← hN, ← zpow_add₀ (by norm_num), sub_add_cancel, zpow_natCast]
  · have hlow : (1 : ℚ) ≤ 2 ^ ((k : ℤ) - e) := (one_le_pow₀ (by norm_num)).trans (hbin.resolve_left (by omega))
    exact absurd hlow (not_le.2 (zpow_lt_one_of_neg₀ (by norm_num) (by omega)))

/-- A natural number up to `2 ^ prec` is rounded to itself: the bound has a bit more, but is a power of two (R11). -/
theorem roundsTo_natCast_of_le (prec n : Nat) (emin : ℤ) (y : ℚ) (he : emin ≤ 0) (hn : n ≤ 2 ^ prec) (h : roundsTo prec emin n y) :
    y = n := by
  rcases hn.lt_or_eq with hlt | rfl
  · exact roundsTo_natCast prec n emin y he hlt h
  · rw [Nat.cast_pow, Nat.cast_ofNat] at h ⊢
    exact roundsTo_two_pow prec prec emin y (by omega) h

/-- The two sums of D2F leave a mantissa of one word as it is (R196). -/
theorem d2fSums_of_one_word (m : Nat) (a1 a2 : ℚ) (hm : m < 2 ^ 32)
    (h1 : roundsTo 53 (-1074) (((m % 2 ^ 32 : Nat) : ℚ) + ((m / 2 ^ 32 % 2 ^ 32 : Nat) : ℚ) * 2 ^ 32) a1)
    (h2 : roundsTo 53 (-1074) (a1 + ((m / 2 ^ 64 : Nat) : ℚ) * 2 ^ 64) a2) : a2 = m := by
  have hlow : m % 2 ^ 32 = m := Nat.mod_eq_of_lt hm
  have hmid : m / 2 ^ 32 % 2 ^ 32 = 0 := by omega
  have hhigh : m / 2 ^ 64 = 0 := by omega
  rw [hlow, hmid, Nat.cast_zero, zero_mul, add_zero] at h1
  have ha1 : a1 = m := roundsTo_natCast 53 m _ _ (by norm_num) (by omega) h1
  rw [ha1, hhigh, Nat.cast_zero, zero_mul, add_zero] at h2
  exact roundsTo_natCast 53 m _ _ (by norm_num) (by omega) h2

/-- Settles O59: the roundings of O45 leave zero and a small integer as they are. -/
theorem d2fKeepsSignAndSmallIntegers : Obligations.D2fKeepsSignAndSmallIntegers := by
  rintro d a s x hok rfl
  obtain ⟨-, w, a1, a2, p, q, hexec, hsign, hfinite, h1, h2, hp, hq, hw⟩ := d2fRoundsAtEveryStep d a s _ hok rfl
  refine ⟨w, hexec, hsign, hfinite, fun hm => ?_, fun hm hs => ?_⟩
  · rw [d2fSums_of_one_word _ a1 a2 (by omega) h1 h2, hm, Nat.cast_zero, zero_div, ← Nat.cast_zero] at hq
    rw [roundsTo_natCast 53 0 _ q (by norm_num) (by norm_num) hq] at hw
    have hzero := roundsTo_natCast 24 0 _ _ (by norm_num) (by norm_num) hw
    exact eq_signedZero w _ hsign ((absVal32Q_eq_zero_iff w).1 (hzero.trans Nat.cast_zero))
  · rw [hs, pow_zero, ← Nat.cast_one] at hp
    have hp1 := roundsTo_natCast 53 1 _ p (by norm_num) (by norm_num) hp
    rw [d2fSums_of_one_word _ a1 a2 (by omega) h1 h2, hp1, Nat.cast_one, div_one] at hq
    rw [roundsTo_natCast 53 _ _ q (by norm_num) (by omega) hq] at hw
    exact roundsTo_natCast_of_le 24 _ _ _ (by norm_num) hm hw

end Sys2Proof.Machine
end

section
/-! SUPPORT. F2D on every pattern: its branches in terms of the magnitude the pattern denotes, and the seven digits (R192 to R194). -/

namespace Sys2Proof.Machine

/-! ### The magnitude of a pattern (R192) -/

theorem toNat_expField (x : Word) : (expField x).toNat = x.toNat / 2 ^ 23 % 256 := Laws.toNat_field x 23 8

theorem toNat_fracField (x : Word) : (fracField x).toNat = x.toNat % 2 ^ 23 := by
  rw [fracField, Laws.toNat_field, pow_zero, Nat.div_one]

theorem isNanOrInf_iff (x : Word) : isNanOrInf x = true ↔ x.toNat / 2 ^ 23 % 256 = 255 := by
  rw [isNanOrInf, beq_iff_eq, ← BitVec.toNat_inj, toNat_expField]
  rfl

theorem absVal32_den_pos (x : Word) : 0 < (absVal32 x).den := by
  rw [absVal32]
  split
  · exact Nat.two_pow_pos 149
  · exact fracScale2_den_pos _ _ Nat.one_pos

/-- The model's exact fraction is the magnitude the pattern denotes (R192). -/
theorem fracValue_absVal32 (x : Word) : fracValue (absVal32 x) = absVal32Q x := by
  have hE : expField x = 0#8 ↔ x.toNat / 2 ^ 23 % 256 = 0 := by
    rw [← BitVec.toNat_inj, toNat_expField]
    rfl
  have hcast : ((expField x).toNat : ℤ) = (x.toNat : ℤ) / 2 ^ 23 % 256 := by
    rw [toNat_expField]
    norm_cast
  simp only [absVal32, absVal32Q, hE]
  split
  · rw [fracValue, toNat_fracField, Nat.cast_pow, Nat.cast_ofNat, div_eq_mul_inv, zpow_neg]
    rfl
  · rw [fracValue_scale2, fracValue_natCast, toNat_fracField, hcast]

theorem absVal32_num_eq_zero_iff (x : Word) : (absVal32 x).num = 0 ↔ absVal32Q x = 0 := by
  have hden : ((absVal32 x).den : ℚ) ≠ 0 := by exact_mod_cast (absVal32_den_pos x).ne'
  rw [← fracValue_absVal32, fracValue, div_eq_zero_iff, or_iff_left hden, Nat.cast_eq_zero]

/-- F2D's test for a magnitude below the least scale (R193). -/
theorem below_least_scale_iff (x : Word) : fracLtNat (fracScale10 (absVal32 x) 28) 1 = true ↔ absVal32Q x < 1 / 10 ^ 28 := by
  rw [fracLtNat_iff _ _ (fracScale10_den_pos _ _ (absVal32_den_pos x)), fracValue_scale10, fracValue_absVal32, lt_div_iff₀ (by positivity),
    Nat.cast_one]
  rfl

/-- A finite pattern denotes less than `2^128` (R192). -/
theorem absVal32Q_lt (x : Word) (h : x.toNat / 2 ^ 23 % 256 ≠ 255) : absVal32Q x < 2 ^ 128 := by
  obtain ⟨E, hE⟩ : ∃ E, x.toNat / 2 ^ 23 % 256 = E := ⟨_, rfl⟩
  rw [absVal32Q_of_fields x E _ hE rfl]
  split
  · have hsig : ((x.toNat % 2 ^ 23 : ℕ) : ℚ) < 2 ^ 23 := by exact_mod_cast Nat.mod_lt _ (by positivity)
    calc _ < (2 : ℚ) ^ 23 * 2 ^ (-149 : ℤ) := by gcongr
      _ < 2 ^ 128 := by norm_num
  · have hsig : ((2 ^ 23 + x.toNat % 2 ^ 23 : ℕ) : ℚ) < 2 ^ 24 := by exact_mod_cast (by omega : 2 ^ 23 + x.toNat % 2 ^ 23 < 2 ^ 24)
    have hexp : (2 : ℚ) ^ ((E : ℤ) - 150) ≤ 2 ^ (104 : ℤ) := zpow_le_zpow_right₀ (by norm_num) (by omega)
    calc _ < (2 : ℚ) ^ 24 * 2 ^ ((E : ℤ) - 150) := by gcongr
      _ ≤ 2 ^ 24 * 2 ^ (104 : ℤ) := by gcongr
      _ = 2 ^ 128 := by norm_num

/-- The patterns below 1 are all finite (R192). -/
theorem finite_of_absVal32Q_lt_one (x : Word) (h : absVal32Q x < 1) : x.toNat / 2 ^ 23 % 256 ≠ 255 := by
  intro hE
  rw [absVal32Q_of_fields x 255 _ hE rfl, if_neg (by norm_num)] at h
  have hF : (0 : ℚ) ≤ (x.toNat % 2 ^ 23 : ℕ) := Nat.cast_nonneg _
  norm_num at h
  linarith

/-! ### Seven digits (R193) -/

/-- `10^6 ≤ X × 10^e < 10^7` (R193). -/
def sevenDigits (x : ℚ) (e : ℤ) : Prop := (10 : ℚ) ^ 6 ≤ x * (10 : ℚ) ^ e ∧ x * (10 : ℚ) ^ e < (10 : ℚ) ^ 7

/-- The downward search stops at the exponent of seven digits, where one lies within its turns (R193). -/
theorem f2dSearch_sevenDigits (x : Frac) (n : Nat) (e : ℤ) (hd : 0 < x.den) (hlow : (10 : ℚ) ^ 6 ≤ fracValue x * (10 : ℚ) ^ e)
    (hhigh : fracValue x * (10 : ℚ) ^ (e - n) < (10 : ℚ) ^ 7) : sevenDigits (fracValue x) (f2dSearch x n e) := by
  induction n generalizing e with
  | zero => exact ⟨hlow, by simpa [f2dSearch] using hhigh⟩
  | succ n ih =>
    have htest : fracLtNat (fracScale10 x e) (10 ^ Config.f2dDigits) = true ↔ fracValue x * (10 : ℚ) ^ e < 10 ^ 7 := by
      rw [fracLtNat_iff _ _ (fracScale10_den_pos _ _ hd), fracValue_scale10]
      norm_num
    rw [f2dSearch]
    split
    · next hlt => exact ⟨hlow, htest.1 hlt⟩
    · next hge =>
      have hge' := not_lt.1 (mt htest.2 hge)
      refine ih (e - 1) ?_ (by rwa [sub_sub, add_comm (1 : ℤ), ← Nat.cast_succ])
      rw [zpow_sub_one₀ (by norm_num), ← mul_assoc]
      linarith

/-- F2D's exponent of a finite pattern from `10^-28` up (R193). -/
theorem f2dExponent_sevenDigits (x : Word) (hfin : x.toNat / 2 ^ 23 % 256 ≠ 255) (h : 1 / 10 ^ 28 ≤ absVal32Q x) :
    sevenDigits (absVal32Q x) (f2dExponent (absVal32 x)) := by
  have hlt := absVal32Q_lt x hfin
  rw [← fracValue_absVal32] at *
  refine f2dSearch_sevenDigits _ 67 34 (absVal32_den_pos x) ?_ ?_
  · calc (10 : ℚ) ^ 6 = 1 / 10 ^ 28 * 10 ^ (34 : ℤ) := by norm_num
      _ ≤ _ := by gcongr
  · calc _ < (2 : ℚ) ^ 128 * 10 ^ ((34 : ℤ) - (67 : ℕ)) := by gcongr
      _ < 10 ^ 7 := by norm_num

/-- Folding back a negative scale multiplies by the power of ten that it stands for (R193). -/
theorem f2dFold_min (x : Frac) (e : ℤ) :
    f2dFold x (min e 28) = ⟨rhe (fracScale10 x (min e 28)) * 10 ^ (-e).toNat, (min e 28).toNat⟩ := by
  rw [f2dFold]
  split
  · next hneg =>
    have hmin : min e 28 = e := by omega
    have hscale : e.toNat = 0 := by omega
    rw [hmin, hscale]
  · next hpos =>
    have hpow : (-e).toNat = 0 := by omega
    rw [hpow, pow_zero, mul_one]

/-! ### F2D -/

/-- F2D's branches by what the pattern denotes (R193). -/
theorem semF2d_eq_by_magnitude (x : Word) :
    semF2d x =
      if x.toNat / 2 ^ 23 % 256 = 255 then (zeroDec, .overflowLarge)
      else if absVal32Q x = 0 then (zeroDec, .ok)
      else if absVal32Q x < 1 / 10 ^ 28 then (zeroDec, .overflowSmall)
      else f2dFinish (f2dFold (absVal32 x) (min (f2dExponent (absVal32 x)) 28)) (x.getLsbD 31) := by
  simp only [semF2d_eq, isNanOrInf_iff, absVal32_num_eq_zero_iff, below_least_scale_iff]

/-- Settles O43: the first three branches, which exclude one another. -/
theorem f2dSpecialInputs : Obligations.F2dSpecialInputs := by
  rintro d a s x rfl
  have hexec := runDS_eq_afterD semF2d d a s
  refine ⟨fun hnan => ?_, fun hzero => ?_, fun hpos hsmall => ?_⟩
  · rwa [semF2d_eq_by_magnitude, if_pos hnan] at hexec
  · rwa [semF2d_eq_by_magnitude, if_neg (by omega), if_pos ((absVal32Q_eq_zero_iff _).2 hzero)] at hexec
  · have hfin := finite_of_absVal32Q_lt_one _ (hsmall.trans (by norm_num))
    rwa [semF2d_eq_by_magnitude, if_neg hfin, if_neg hpos.ne', if_pos hsmall] at hexec

/-- The last branch, for a finite pattern from `10^-28` up: seven digits, or as many as scale 28 holds, rounded half to even (R193). -/
theorem semF2d_sevenDigits (x : Word) (hfin : x.toNat / 2 ^ 23 % 256 ≠ 255) (hge : 1 / 10 ^ 28 ≤ absVal32Q x) :
    ∃ (e : ℤ) (N : Nat), sevenDigits (absVal32Q x) e ∧ nearestEven N (absVal32Q x * (10 : ℚ) ^ (min e 28)) ∧
      semF2d x = f2dFinish ⟨N * 10 ^ (-e).toNat, (min e 28).toNat⟩ (x.getLsbD 31) := by
  have hne : absVal32Q x ≠ 0 := (lt_of_lt_of_le (by norm_num) hge).ne'
  refine ⟨f2dExponent (absVal32 x), rhe (fracScale10 (absVal32 x) (min (f2dExponent (absVal32 x)) 28)),
    f2dExponent_sevenDigits x hfin hge, ?_, ?_⟩
  · rw [← fracValue_absVal32, ← fracValue_scale10]
    exact rhe_nearestEven _ (fracScale10_den_pos _ _ (absVal32_den_pos x))
  · rw [semF2d_eq_by_magnitude, if_neg hfin, if_neg hne, if_neg hge.not_gt, f2dFold_min]

/-- The completion after the range test and the strip (R193, R194). -/
theorem afterD_f2dFinish (d : Fin 8) (r : Mag) (neg : Bool) (s : State) :
    afterD d (f2dFinish r neg).1 (f2dFinish r neg).2 s =
      if r.m ≤ 2 ^ 96 - 1 then afterD d ⟨(normalize r.m r.s).m, (normalize r.m r.s).s, neg⟩ .ok s
      else afterD d zeroDec .invalidArgument s := by
  rw [f2dFinish]
  by_cases h : r.m ≤ 2 ^ 96 - 1
  · rw [if_neg (not_lt.2 h), if_pos h]
  · rw [if_pos (not_le.1 h), if_neg h]

/-- Settles O44: `M` is the mantissa that `f2dFold` hands to the range test. -/
theorem f2dKeepsSevenDigits : Obligations.F2dKeepsSevenDigits := by
  rintro d a s x rfl hfin hge
  obtain ⟨e, N, ⟨hlow, hhigh⟩, hround, hsem⟩ := semF2d_sevenDigits _ hfin hge
  refine ⟨wordOf_regFields 0 a d 0x31#8, e, N, _, hlow, hhigh, hround, rfl, ?_⟩
  rw [exec, execF2d, runDS_eq_afterD semF2d d a s, hsem, afterD_f2dFinish]
  rfl

end Sys2Proof.Machine
end

section
/-! No command traps (R220). -/

namespace Sys2Proof.Machine

/-- Settles O12: every command, and every due word whether or not it decodes, ends in `completeWith`, which clears BUSY. -/
theorem everyDueCommandCompletes : Obligations.EveryDueCommandCompletes := by
  refine ⟨fun i s => ?_, fun s l hdue => ?_⟩
  · obtain ⟨w, ec, hexec⟩ := exec_completes i s
    exact ⟨_, hexec, completeWith_busy w ec s⟩
  · obtain ⟨w, ec, hstep⟩ := step_of_due s l.word (dueWord_of_completionDue s l hdue)
    exact ⟨_, hstep, completeWith_busy w ec s⟩

end Sys2Proof.Machine
end

section
/-! The end of a run (R260). -/

namespace Sys2Proof.Machine

/-- A run has ended when the host has no move left and no command is in flight. -/
theorem runEnded_iff (s : State) : runEnded s = true ↔ hostDone s = true ∧ s.busy = false := by simp [runEnded]

/-- The two ways a host ends its script (R69). -/
theorem hostDone_iff (s : State) : hostDone s = true ↔ hostNext s = none ∨ hostNext s = some .halt := by simp [hostDone]

/-- Where a host stands rests on its script and place alone. -/
@[simp] theorem hostDone_completeWith (w : Write) (ec : ErrorCode) (s : State) : hostDone (completeWith w ec s) = hostDone s := rfl

/-- BUSY is the presence of the latch (R29, R38). -/
theorem latch_eq_none_of_idle (s : State) (h : s.busy = false) : s.latch = none := by
  simpa [State.busy] using h

/-- A turn passes latency only while a command is in flight (R72). -/
theorem tick_of_idle (s : State) (h : s.busy = false) : tick s = s := by
  have hl : s.latch = none := latch_eq_none_of_idle s h
  rw [tick, hl, Option.map_none, ← hl]

/-- With the latch empty no completion is due (R29). -/
theorem dueWord_of_idle (s : State) (h : s.busy = false) : dueWord s = none := by simp only [dueWord, latch_eq_none_of_idle s h]

/-- The turn of a host that has ended its script changes nothing while BUSY = 0 (R50). -/
theorem hostTurn_of_hostDone_idle (s : State) (h : hostDone s = true) (hidle : s.busy = false) : hostTurn s = .next s := by
  rcases (hostDone_iff s).1 h with hnone | hhalt
  · simp only [hostTurn, hnone]
  · simp only [hostTurn, hhalt, hostMove, tick_of_idle s hidle]

/-- A command in flight is due once its host has ended (R260). -/
theorem completionDue_of_hostDone (s : State) (h : hostDone s = true) (hb : s.busy = true) : ∃ l, completionDue s l := by
  obtain ⟨l, hl⟩ := Option.isSome_iff_exists.1 hb
  exact ⟨l, hl, .inr h⟩

/-- Settles O58: with BUSY = 0 the step is the turn of a host with no move left; with BUSY = 1 it is the completion, which empties the
latch and leaves the host where it stands. -/
theorem endedRunStaysEnded : Obligations.EndedRunStaysEnded := by
  refine ⟨fun s hended => ?_, fun s hdone hb => ?_⟩
  · obtain ⟨hdone, hidle⟩ := (runEnded_iff s).1 hended
    rw [step_of_not_due s (dueWord_of_idle s hidle), hostTurn_of_hostDone_idle s hdone hidle]
  · obtain ⟨l, hdue⟩ := completionDue_of_hostDone s hdone hb
    obtain ⟨w, ec, hstep⟩ := step_of_due s l.word (dueWord_of_completionDue s l hdue)
    exact ⟨_, hstep, (runEnded_iff _).2 ⟨(hostDone_completeWith w ec s).trans hdone, completeWith_busy w ec s⟩⟩

end Sys2Proof.Machine
end

section
/-! What a command's outcome rests on: the registers it reads and its completion (R71, R72, R258). -/

namespace Sys2Proof.Machine

section
variable {s t : State} (hsrc : sources s = sources t) (hcomp : ∀ w ec, completeWith w ec s = completeWith w ec t)
include hsrc hcomp

theorem runDDD_congr (sem : Dec → Dec → Dec × ErrorCode) (rd ra rb : RegField) : runDDD sem rd ra rb s = runDDD sem rd ra rb t := by
  simp only [runDDD, completeInvalid, hsrc, hcomp]

theorem runCMP_congr (rel : Dec → Dec → Bool) (ra rb : RegField) : runCMP rel ra rb s = runCMP rel ra rb t := by
  simp only [runCMP, completeInvalid, hsrc, hcomp]

theorem runDD_congr (sem : Dec → Dec × ErrorCode) (rd ra : RegField) : runDD sem rd ra s = runDD sem rd ra t := by
  simp only [runDD, completeInvalid, hsrc, hcomp]

theorem runDS_congr (sem : Word → Dec × ErrorCode) (rd ra : RegField) : runDS sem rd ra s = runDS sem rd ra t := by
  simp only [runDS, completeInvalid, hsrc, hcomp]

theorem runSD_congr (sem : Dec → Word × ErrorCode) (rd ra : RegField) : runSD sem rd ra s = runSD sem rd ra t := by
  simp only [runSD, completeInvalid, hsrc, hcomp]

/-- Two states with the same sources and the same completions give every command the same outcome (R71, R72). -/
theorem exec_congr (i : Instr) : exec i s = exec i t := by
  cases i with
  | dadd rd ra rb | dsub rd ra rb | dmul rd ra rb | ddiv rd ra rb => exact runDDD_congr hsrc hcomp _ rd ra rb
  | dlt ra rb | dle ra rb | dgt ra rb | dge ra rb | deq ra rb | dne ra rb => exact runCMP_congr hsrc hcomp _ ra rb
  | dtrunc rd ra | dround rd ra | dfloor rd ra | dneg rd ra => exact runDD_congr hsrc hcomp _ rd ra
  | i2d rd ra | f2d rd ra => exact runDS_congr hsrc hcomp _ rd ra
  | d2i rd ra | d2f rd ra => exact runSD_congr hsrc hcomp _ rd ra

end

/-- Settles O17: the sources are the latched registers whatever the latency left, and a completion empties the latch. -/
theorem completionIgnoresLatency : Obligations.CompletionIgnoresLatency :=
  fun i _ _ _ => exec_congr rfl (fun _ _ => rfl) i

end Sys2Proof.Machine
end
